-- ==== Sys2Proof/Word.lean ====
section
/-! DEFINITION. The words of the display core: a 32-bit command word, an 8-bit segment pattern, a 7-bit digit
row and the 24-bit chain (spec 00_scope R8, R12; 30_encoding R80, R81, R85). -/

namespace Sys2Proof

/-- One 32-bit command word of the host's command stream (30_encoding R85). -/
abbrev CommandWord := BitVec 32

/-- A SegmentPattern: element `i` is bit `i` of its pattern word `W(P)`, so element 0, the extra bit, is the
least significant bit and element 7, segment g, the most significant (00_scope R12; 30_encoding R80). -/
abbrev Pattern := BitVec 8

/-- A row of the digit ROM: bit `k` is segment a, b, c, d, e, f, g for `k = 0 … 6` (30_encoding R81). -/
abbrev SegRow := BitVec 7

/-- The 24 shift stages, or the 24 output latches, of the chain: bit `j` is stage `j` (00_scope R14). -/
abbrev Chain := BitVec 24

end Sys2Proof
end

