-- ==== Sys2Proof/Config.lean ====
section
/-! DEFINITION. What the spec fixes for the machine as a whole, and the open values: constants with no body, of
which nothing can be proved but their type (00_scope R8, R9; 10_state R36; 42 R171). The configuration data with
printed values (the digit table, the calibration) stand in Machine/Parameters.lean. -/

namespace Sys2Proof.Config

/-- `ADC_MAX`, the largest value one sensor read can return: OPEN (00_scope R9, decision D13; log 4). -/
opaque adcMax : Nat

/-- `PWM_FREQ_HZ`, the frequency the host programs at start-up: OPEN (00_scope R9, decision D16; log 21). -/
opaque pwmFreqHz : Nat

/-- The free sample of the `n`-th sensor read, before it is brought into `0..ADC_MAX` (42 R171; log 4). -/
opaque rawSample : Nat → Nat

/-- The contents of the chain's shift stages after reset: unspecified (10_state R36; log 2). -/
opaque resetSr : Chain

/-- The contents of the chain's output latches after reset: unspecified (10_state R36; log 2). -/
opaque resetOut : Chain

/-- The PWM duty register after reset: unspecified (10_state R36; log 2). -/
opaque resetPwmDuty : BitVec 10

/-- The PWM frequency register after reset: unspecified (10_state R36; log 2). -/
opaque resetPwmFreq : Nat

/-- The free value of the `n`-th sensor read: any integer in `0..ADC_MAX` (42 R171; log 4). -/
def freeSample (n : Nat) : Nat := rawSample n % (adcMax + 1)

end Sys2Proof.Config
end

