-- ==== Sys2Proof/Syntax.lean ====
section
/-! DEFINITION. The abstract syntax: the ten operations with their operand types (00_scope R16; 30_encoding R82,
R83, R96). -/

namespace Sys2Proof

/-- The encoder's second input: a digit, blank, or an explicit raw pattern (30_encoding R82). The three forms are
told apart by their tag, never by value. -/
inductive Symbol where
  /-- A natural number; valid when it is at most 9. -/
  | digit (d : Nat)
  /-- No symbol: all seven segments dark. -/
  | blank
  /-- A raw list; valid when it has 8 elements, each 0 or 1. -/
  | raw (elements : List Nat)
deriving DecidableEq, Repr

/-- An assignment: one extra bit and one symbol (30_encoding R83). -/
structure Assignment where
  /-- The caller-supplied extra bit, element 0 of the pattern. -/
  extra : Bool
  symbol : Symbol
deriving DecidableEq, Repr

/-- The ten operations (30_encoding R96). A `bit` operand is a `Bool`, a `digit` or `nat` a natural number. -/
inductive Instr where
  /-- `ENCD x, d`: encode a digit (40 R124). -/
  | encd (x : Bool) (d : Nat)
  /-- `ENCB x`: encode blank (40 R125). -/
  | encb (x : Bool)
  /-- `ENCR x, L`: encode a raw pattern (40 R126). -/
  | encr (x : Bool) (elements : List Nat)
  /-- `SHOUT Ps`: shift out the patterns, first one first, and latch (41 R149). -/
  | shout (patterns : List Pattern)
  /-- `FRAME a0, a1, a2`: encode three assignments and shift them out (41 R150). -/
  | frame (a0 a1 a2 : Assignment)
  /-- `DISP ht, hu, mt, mu`: show four digits (43 R202). -/
  | disp (ht hu mt mu : Nat)
  /-- `TIME h, m`: show a 12-hour time (43 R203). -/
  | time (h m : Nat)
  /-- `CDUTY`: compute a duty from 100 sensor samples (42 R177). -/
  | cduty
  /-- `PWMF hz`: set the PWM frequency (42 R178). -/
  | pwmf (hz : Nat)
  /-- `PWMD v`: set the PWM duty (42 R179). -/
  | pwmd (v : Nat)
deriving DecidableEq, Repr

end Sys2Proof
end

