-- ==== Sys2Proof/WellFormed.lean ====
section
/-! DEFINITION. Well-formed operations: every operand at a value its field of the command encoding carries
(30_encoding R86 to R94, R97). The abstract operations of R96 are more: what a field cannot carry still has a
meaning in the machine. -/

namespace Sys2Proof

/-- A raw list a command word carries exactly: a length of 0 to 15, elements of 0 to 3, and 0 from the ninth
element on (30_encoding R86, R87). -/
def rawListWf (l : List Nat) : Bool :=
  decide (l.length ≤ 15) && (l.take 8).all (fun e => decide (e ≤ 3)) && (l.drop 8).all (fun e => decide (e = 0))

/-- A symbol an `ENC` or `SYM` word carries exactly (30_encoding R86, R97). -/
def Symbol.wf : Symbol → Bool
  | .digit d => decide (d < 16)
  | .blank => true
  | .raw l => rawListWf l

/-- An operation that has command words of its own (30_encoding R86 to R94, R97). -/
def Instr.wf : Instr → Bool
  | .encd _ d => (Symbol.digit d).wf
  | .encb _ => Symbol.blank.wf
  | .encr _ l => (Symbol.raw l).wf
  | .shout ps => decide (ps.length ≤ 255)
  | .frame a0 a1 a2 => a0.symbol.wf && a1.symbol.wf && a2.symbol.wf
  | .disp ht hu mt mu => decide (ht < 16) && decide (hu < 16) && decide (mt < 16) && decide (mu < 16)
  | .time h m => decide (h < 64) && decide (m < 64)
  | .cduty => true
  | .pwmf hz => decide (hz < 268435456)
  | .pwmd v => decide (v < 1024)

end Sys2Proof
end

