-- ==== Sys2Proof/Decode.lean ====
section
/-! DEFINITION. The decoder and, after it, the encoder of the command words (30_encoding Part B, R85 to R99). The
stream is a stream of 32-bit words: the spec gives words no byte order (log 13). -/

namespace Sys2Proof

/-- Why a word, or a stream, spells no operation (30_encoding R98 (c)). Raised by the decoder only; safe: the
machine refuses the words. -/
inductive BadCommand where
  /-- A header word with opcode 0 or 9 to 15. -/
  | reservedOpcode
  /-- An `ENC` or `SYM` word with `kind = 11`. -/
  | reservedKind
  /-- A must-be-zero bit, or a field its kind does not use, is not zero. -/
  | nonzeroReserved
  /-- A raw list with a non-zero element at or past its length. -/
  | elementPastLength
  /-- A `SHOUT` operand word with a non-zero byte at or past `N`. -/
  | bytePastCount
  /-- A `SYM` operand word whose bits 31..28 are not 0000. -/
  | symbolWordOpcode
  /-- The stream ends inside an operation. In a step the stream is what is pending (log 23). -/
  | truncated
deriving DecidableEq, Repr

/-- The bit field `w[hi:lo]`, zero-extended to a natural number (00_scope R13; 30_encoding R97). -/
def field (w : CommandWord) (hi lo : Nat) : Nat := w.toNat / 2 ^ lo % 2 ^ (hi - lo + 1)

/-- The opcode of a header word (30_encoding R85). -/
def opcode (w : CommandWord) : Nat := field w 31 28

/-- How many operand words follow a header word: `(N + 3) div 4` for `SHOUT`, three for `FRAME`, else none
(30_encoding R88, R89, R99). -/
def operandCount (h : CommandWord) : Nat :=
  if opcode h = 2 then (field h 27 20 + 3) / 4 else if opcode h = 3 then 3 else 0

/-- The length in words of the operation a header word begins (30_encoding R99). -/
def commandLength (h : CommandWord) : Nat := 1 + operandCount h

/-- The elements of a raw list of length `n` whose 2-bit elements are packed in `e`, element 0 lowest. `e` has 16
bits, so the elements from the ninth on are 0 (30_encoding R86, R87). -/
def unpackElements : Nat → Nat → List Nat
  | 0, _ => []
  | n + 1, e => e % 4 :: unpackElements n (e / 4)

/-- The fields below the opcode of an `ENC` or `SYM` word (30_encoding R86). -/
def decodeSymbol (w : CommandWord) : Except BadCommand Assignment :=
  let x := decide (field w 25 25 = 1)
  let n := field w 24 21
  let d := field w 20 17
  let e := field w 15 0
  if field w 16 16 ≠ 0 then .error .nonzeroReserved
  else if field w 27 26 = 0 then
    if n = 0 ∧ e = 0 then .ok ⟨x, .digit d⟩ else .error .nonzeroReserved
  else if field w 27 26 = 1 then
    if n = 0 ∧ d = 0 ∧ e = 0 then .ok ⟨x, .blank⟩ else .error .nonzeroReserved
  else if field w 27 26 = 2 then
    if d ≠ 0 then .error .nonzeroReserved
    else if e / 4 ^ n ≠ 0 then .error .elementPastLength
    else .ok ⟨x, .raw (unpackElements n e)⟩
  else .error .reservedKind

/-- The operation an `ENC` word stands for, by the form of its symbol (30_encoding R86, R96). -/
def encoderInstr (a : Assignment) : Instr :=
  match a.symbol with
  | .digit d => .encd a.extra d
  | .blank => .encb a.extra
  | .raw l => .encr a.extra l

/-- A `SYM` operand word of `FRAME`: bits 31..28 are 0000 (30_encoding R86, R89). -/
def decodeSymbolWord (w : CommandWord) : Except BadCommand Assignment :=
  if opcode w = 0 then decodeSymbol w else .error .symbolWordOpcode

/-- The four patterns of a `SHOUT` operand word, the first in bits 31..24 (30_encoding R88). -/
def unpackPatterns (w : CommandWord) : List Pattern :=
  [BitVec.ofNat 8 (field w 31 24), BitVec.ofNat 8 (field w 23 16), BitVec.ofNat 8 (field w 15 8),
    BitVec.ofNat 8 (field w 7 0)]

/-- The first `n` patterns of `SHOUT`'s operand words; the unused bytes must be 0 (30_encoding R88, R98). -/
def decodePatterns (n : Nat) (ws : List CommandWord) : Except BadCommand (List Pattern) :=
  let all := ws.flatMap unpackPatterns
  if (all.drop n).all (fun p => p == 0) then .ok (all.take n) else .error .bytePastCount

/-- The operation of a header word and exactly its operand words (30_encoding R86 to R94, R96, R98). -/
def decodeOperation (h : CommandWord) (operands : List CommandWord) : Except BadCommand Instr :=
  if opcode h = 1 then (decodeSymbol h).map encoderInstr
  else if opcode h = 2 then
    if field h 19 0 ≠ 0 then .error .nonzeroReserved
    else (decodePatterns (field h 27 20) operands).map .shout
  else if opcode h = 3 then
    if field h 27 0 ≠ 0 then .error .nonzeroReserved
    else match operands with
      | [w0, w1, w2] => do
        let a0 ← decodeSymbolWord w0
        let a1 ← decodeSymbolWord w1
        let a2 ← decodeSymbolWord w2
        return .frame a0 a1 a2
      | _ => .error .truncated
  else if opcode h = 4 then
    if field h 27 16 ≠ 0 then .error .nonzeroReserved
    else .ok (.disp (field h 15 12) (field h 11 8) (field h 7 4) (field h 3 0))
  else if opcode h = 5 then
    if field h 27 14 ≠ 0 ∨ field h 7 6 ≠ 0 then .error .nonzeroReserved
    else .ok (.time (field h 13 8) (field h 5 0))
  else if opcode h = 6 then
    if field h 27 0 ≠ 0 then .error .nonzeroReserved else .ok .cduty
  else if opcode h = 7 then .ok (.pwmf (field h 27 0))
  else if opcode h = 8 then
    if field h 27 10 ≠ 0 then .error .nonzeroReserved else .ok (.pwmd (field h 9 0))
  else .error .reservedOpcode

/-- The first operation of a command stream and the words after it. The length is known from the header word
alone (30_encoding R85, R99). -/
def decode : List CommandWord → Except BadCommand (Instr × List CommandWord)
  | [] => .error .truncated
  | h :: rest =>
    if rest.length < operandCount h then .error .truncated
    else (decodeOperation h (rest.take (operandCount h))).map fun i => (i, rest.drop (operandCount h))

/-- The most words an operation has: a `SHOUT` of 255 patterns (30_encoding R88). -/
def maxCommandWords : Nat := 65

/-- The first `n` 32-bit words of a number, the least significant word first. -/
def splitWords : Nat → Nat → List CommandWord
  | 0, _ => []
  | n + 1, v => BitVec.ofNat 32 v :: splitWords n (v / 2 ^ 32)

/-- The words of an instruction given as one number of `nbits` bits, bit 0 the least significant bit of the first
word, the bits above `nbits` zero, as far as the longest operation goes (log 13). -/
def tableWords (nbits w : Nat) : List CommandWord := splitWords maxCommandWords (w % 2 ^ nbits)

/-- The operation the decoder reads from the words of `tableWords`. -/
def decodeTableWord (nbits w : Nat) : Option Instr :=
  match decode (tableWords nbits w) with
  | .ok (i, _) => some i
  | .error _ => none

/-! ## The encoder -/

/-- The packed 2-bit elements of a raw list, element 0 lowest; an element above 3 is carried as 3
(30_encoding R87). -/
def packElements : List Nat → Nat
  | [] => 0
  | e :: es => min e 3 + 4 * packElements es

/-- The bits below the opcode of an `ENC` or `SYM` word: `kind`, `x`, `n`, `d` and `E` at their places. A raw list
saturates: a length above 15 is carried as 15, elements past the eighth are dropped (30_encoding R86, R87). -/
def encodeSymbolBits (x : Bool) : Symbol → Nat
  | .digit d => x.toNat * 2 ^ 25 + d % 16 * 2 ^ 17
  | .blank => 1 * 2 ^ 26 + x.toNat * 2 ^ 25
  | .raw l => 2 * 2 ^ 26 + x.toNat * 2 ^ 25 + min l.length 15 * 2 ^ 21 + packElements (l.take 8)

/-- An `ENC` word: opcode 1 (30_encoding R86). -/
def encWord (x : Bool) (s : Symbol) : CommandWord := BitVec.ofNat 32 (1 * 2 ^ 28 + encodeSymbolBits x s)

/-- A `SYM` operand word: bits 31..28 zero (30_encoding R86, R89). -/
def symWord (a : Assignment) : CommandWord := BitVec.ofNat 32 (encodeSymbolBits a.extra a.symbol)

/-- One `SHOUT` operand word: the first pattern in bits 31..24 (30_encoding R88). -/
def packWord (p0 p1 p2 p3 : Pattern) : CommandWord :=
  BitVec.ofNat 32 (p0.toNat * 2 ^ 24 + p1.toNat * 2 ^ 16 + p2.toNat * 2 ^ 8 + p3.toNat)

/-- `SHOUT`'s operand words: four patterns a word, unused bytes 0 (30_encoding R88). -/
def packPatterns : List Pattern → List CommandWord
  | [] => []
  | [a] => [packWord a 0 0 0]
  | [a, b] => [packWord a b 0 0]
  | [a, b, c] => [packWord a b c 0]
  | a :: b :: c :: d :: rest => packWord a b c d :: packPatterns rest

/-- The command words of an operation (30_encoding R86 to R94). They stand for the operation where it is
well-formed (`Instr.wf`), and a raw list saturates as R87 says. An operand its field cannot carry is cut to the
field: such an operation has no words (`Instr.encodable`, `commandWords`). -/
def encode : Instr → List CommandWord
  | .encd x d => [encWord x (.digit d)]
  | .encb x => [encWord x .blank]
  | .encr x l => [encWord x (.raw l)]
  | .shout ps => BitVec.ofNat 32 (2 * 2 ^ 28 + ps.length % 256 * 2 ^ 20) :: packPatterns ps
  | .frame a0 a1 a2 => [BitVec.ofNat 32 (3 * 2 ^ 28), symWord a0, symWord a1, symWord a2]
  | .disp ht hu mt mu =>
    [BitVec.ofNat 32 (4 * 2 ^ 28 + ht % 16 * 2 ^ 12 + hu % 16 * 2 ^ 8 + mt % 16 * 2 ^ 4 + mu % 16)]
  | .time h m => [BitVec.ofNat 32 (5 * 2 ^ 28 + h % 64 * 2 ^ 8 + m % 64)]
  | .cduty => [BitVec.ofNat 32 (6 * 2 ^ 28)]
  | .pwmf hz => [BitVec.ofNat 32 (7 * 2 ^ 28 + hz % 2 ^ 28)]
  | .pwmd v => [BitVec.ofNat 32 (8 * 2 ^ 28 + v % 2 ^ 10)]

/-! ## What has words -/

/-- A symbol its fields carry: a digit up to 15, blank, and every raw list, as a raw list saturates
(30_encoding R86, R87). -/
def Symbol.encodable : Symbol → Bool
  | .digit d => decide (d < 16)
  | .blank => true
  | .raw _ => true

/-- An operation that has command words: each operand is one its field carries (30_encoding R86 to R94, R97). Beside
the well-formed operations these are the raw lists that saturate in their word (R87). -/
def Instr.encodable : Instr → Bool
  | .encd _ d => (Symbol.digit d).encodable
  | .encb _ => Symbol.blank.encodable
  | .encr _ l => (Symbol.raw l).encodable
  | .shout ps => decide (ps.length ≤ 255)
  | .frame a0 a1 a2 => a0.symbol.encodable && a1.symbol.encodable && a2.symbol.encodable
  | .disp ht hu mt mu => decide (ht < 16) && decide (hu < 16) && decide (mt < 16) && decide (mu < 16)
  | .time h m => decide (h < 64) && decide (m < 64)
  | .cduty => true
  | .pwmf hz => decide (hz < 268435456)
  | .pwmd v => decide (v < 1024)

/-- The command words of an operation, none where a field cannot carry its operand (30_encoding R87, R90, R97). -/
def commandWords (i : Instr) : Option (List CommandWord) := if i.encodable then some (encode i) else none

end Sys2Proof
end

