-- ==== Sys2Proof/Machine/State.lean ====
section
/-! DEFINITION. The state of the display core as plain data, what stops it, and the state after reset (10_state). -/

namespace Sys2Proof.Machine

/-- The three output pins: data, shift clock, latch clock (10_state R22). -/
inductive Pin where
  | data
  | shcp
  | stcp
deriving DecidableEq, Repr

/-- One micro-step, as `TRACE` records it (10_state R33). -/
inductive TraceEntry where
  /-- `(DATA, b)`, `(SHCP, b)` or `(STCP, b)`: a pin was driven to a level, also to the level it had. -/
  | pin (p : Pin) (level : Bool)
  /-- `(SENSOR, v)`: one sensor read answered `v`. -/
  | sensor (v : Nat)
  /-- `(PWMDUTY, v)`: a write of the PWM duty register. -/
  | pwmDuty (v : BitVec 10)
  /-- `(PWMFREQ, v)`: a write of the PWM frequency register. -/
  | pwmFreq (hz : Nat)
  /-- `(FAULT, code)`: a fatal error was raised. -/
  | fault (code : BitVec 2)
deriving DecidableEq, Repr

/-- What an operation hands back to the host on the result port: 8 bits from the encoder, 10 bits from `CDUTY`
(20_memory R52; 30_encoding R95). -/
inductive OpResult where
  | pattern (w : Pattern)
  | duty (v : BitVec 10)
deriving DecidableEq, Repr

/-- The errors of the source's taxonomy (60 R220). -/
inductive FatalError where
  /-- A malformed raw pattern: fatal (60 R221). -/
  | invalidPattern
  /-- An hour-tens digit outside 0 and 1: fatal (60 R222). -/
  | invalidHourTens
deriving DecidableEq, Repr

/-- The state (10_state R22 to R33) and, after `result`, the model's own fields for its inputs. -/
structure State where
  /-- `DATA`, the level of the data pin (R22). -/
  data : Bool
  /-- `SHCP`, the level of the shift-clock pin (R22). -/
  shcp : Bool
  /-- `STCP`, the level of the latch-clock pin (R22). -/
  stcp : Bool
  /-- `SR`, the 24 shift stages: hidden until a latch (R24, R26). -/
  sr : Chain
  /-- `OUT`, the 24 output latches: the display (R25). -/
  out : Chain
  /-- `PWMDUTY` (R28). -/
  pwmDuty : BitVec 10
  /-- `PWMFREQ` in hertz (R29). -/
  pwmFreq : Nat
  /-- `HALT` (R30). -/
  halt : Bool
  /-- `CAUSE` (R31). -/
  cause : BitVec 2
  /-- `TRACE`, the ghost list of micro-steps since reset, oldest first (R33; log 6). -/
  trace : List TraceEntry
  /-- What the last operation handed back on the result port, none if it handed back nothing (30_encoding R95;
  log 5). No operation reads it. -/
  result : Option OpResult
  /-- The model's own: the command words the host has issued and the block has not taken yet, the first one first
  (30_encoding R85; log 1). -/
  commands : List CommandWord
  /-- The model's own: the samples the sensor gives at the next reads, as far as they are given; the reads after
  them give free values (42 R171; log 4). -/
  sensor : List Nat
  /-- The model's own: how many sensor reads there have been, the index of the next free sample (log 4). -/
  sensorReads : Nat
deriving DecidableEq, Repr

/-- Why a step has no next state though its operation has a meaning. Closed. -/
inductive Fault where
  /-- Raised by every operation, and by a step, while `HALT = 1`: no operation has a step in the halted state
  (60 R226). Safe: the state never changes again before reset. -/
  | halted
deriving DecidableEq, Repr

/-- Why an operation is refused: the spec gives it no meaning and names no error (60 R229). Each is safe: the
model declines to say what the block does, and neither `HALT` nor `CAUSE` is set. Closed. -/
inductive Refusal where
  /-- Raised by no meaning: the name the host reads for an instruction without one. Safe. -/
  | notModelled (mnemonic : String)
  /-- `DigitOutOfRange`, by `ENCD`, `FRAME`, `DISP`: a digit above 9 (40 R124). Safe. -/
  | digitOutOfRange
  /-- `TimeOutOfRange`, by `TIME`: an hour outside 1 to 12 whose tens digit is 0 or 1, or a minute above 59
  (43 R203). Safe. -/
  | timeOutOfRange
  /-- `DutyOutOfRange`, by `PWMD`: a value above 1023, which no command word carries (42 R179). Safe. -/
  | dutyOutOfRange
  /-- `InvalidCommandWord`, by the step: words that spell no operation (30_encoding R98). Safe. -/
  | invalidCommandWord (why : BadCommand)
deriving DecidableEq, Repr

/-- The three outcomes of an operation or a step of this machine. -/
abbrev Outcome := Host.Outcome State Fault Refusal

/-- The state the reset event leaves, for any value of the four registers the spec leaves unspecified: they are
free inputs of the reset step (10_state R36; 70 R260, R261; log 2, log 3). -/
def State.resetWith (sr out : Chain) (pwmDuty : BitVec 10) (pwmFreq : Nat) : State where
  data := false
  shcp := false
  stcp := false
  sr := sr
  out := out
  pwmDuty := pwmDuty
  pwmFreq := pwmFreq
  halt := false
  cause := 0
  trace := []
  result := none
  commands := []
  sensor := []
  sensorReads := 0

/-- The machine right after reset, the four unspecified registers at the open constants of Config (10_state R36;
log 2). -/
def State.reset : State :=
  State.resetWith Config.resetSr Config.resetOut Config.resetPwmDuty Config.resetPwmFreq

end Sys2Proof.Machine
end

