-- ==== Sys2Proof/Machine/Flags.lean ====
section
/-! DEFINITION. The status of the block. There are no carry, zero, sign or overflow flags and no condition code, and
no operation writes a flag as a side effect (10_state R32); the status is `HALT` and `CAUSE` (R30, R31). -/

namespace Sys2Proof.Machine

/-- The number of a fatal error in `CAUSE`: 1 `InvalidPatternError`, 2 `InvalidHourTensError` (60 R220; log 19). The
number 3 is reserved for the host's `TimeSyncError`, which the block never raises (60 R223). -/
def FatalError.code : FatalError → BitVec 2
  | .invalidPattern => 1
  | .invalidHourTens => 2

end Sys2Proof.Machine
end

