-- ==== Sys2Proof/Machine/Parameters.lean ====
section
/-! DEFINITION. The configuration data with values the spec prints: the digit ROM and the brightness controller's
constants (00_scope R8, R9; 10_state R34). No operation writes them. -/

namespace Sys2Proof.Machine

/-- The digit ROM `SEG_TABLE`, ten rows of seven bits, bit 0 segment a (40 R123). PRESUMED: the rows are the common
seven-segment font, general knowledge and not in the source (93 G1; log 7). -/
def segRow : Fin 10 → SegRow
  | 0 => 0x3F
  | 1 => 0x06
  | 2 => 0x5B
  | 3 => 0x4F
  | 4 => 0x66
  | 5 => 0x6D
  | 6 => 0x7D
  | 7 => 0x07
  | 8 => 0x7F
  | 9 => 0x6F

/-- `N_SAMPLES`: sensor reads per brightness computation (00_scope R8; 42 R172). -/
def nSamples : Nat := 100

/-- `AVG_MIN`: below this average the duty is `DUTY_MIN` (00_scope R8; 42 R173). -/
def avgMin : Rat := 15

/-- `DUTY_MIN`: the lowest duty the controller returns (00_scope R8). -/
def dutyMin : Int := 1

/-- `DUTY_MAX`: the highest duty the controller returns (00_scope R8). -/
def dutyMax : Int := 1022

/-- `CAL_TOP = 1023.0` (00_scope R8; log 12). -/
def calTop : Rat := 1023

/-- `CAL_OFFSET = 10.1991`, the decimal number 101991/10000 (00_scope R8; 42 R174; log 12). -/
def calOffset : Rat := 101991 / 10000

/-- `CAL_SCALE = 15284.0` (00_scope R8; log 12). -/
def calScale : Rat := 15284

/-- `PWM_FULL`: the duty value that means always high (00_scope R9; log 17). -/
def pwmFull : Nat := 1023

end Sys2Proof.Machine
end

