-- ==== Sys2Proof/Machine/Ops.lean ====
section
/-! DEFINITION. The named operations over the state: the ROM read, the pin write and the chain's reaction, the
driver's pin scripts, the sensor read, the PWM writes, the result port, and raising a fatal error (00_scope R15;
20_memory; 41; 60 R224). -/

namespace Sys2Proof.Machine

/-- `MemRead(d, 7)`: the row of the digit ROM at address `d`. Addresses 10 and above do not exist, which the type
of `d` says (20_memory R50). -/
def memRead (d : Fin 10) : SegRow := segRow d

/-! ## The pins and the chain -/

/-- The level of a pin (10_state R22). -/
def State.level (s : State) : Pin → Bool
  | .data => s.data
  | .shcp => s.shcp
  | .stcp => s.stcp

/-- The assignment `pin <- level` alone (00_scope R14). -/
def State.setLevel (s : State) (p : Pin) (level : Bool) : State :=
  match p with
  | .data => { s with data := level }
  | .shcp => { s with shcp := level }
  | .stcp => { s with stcp := level }

/-- Append one micro-step to `TRACE` (10_state R33). -/
def State.record (s : State) (e : TraceEntry) : State := { s with trace := s.trace ++ [e] }

/-- `Shift()`: every stage takes the one below it, stage 0 the level of `DATA`; the bit of stage 23 is lost:
`SR <- (2*SR + DATA) mod 2^24` (41 R142; log 16). -/
def State.shift (s : State) : State := { s with sr := BitVec.ofNat 24 (2 * s.sr.toNat + s.data.toNat) }

/-- `Latch()`: all 24 stages go to the output latches at once (41 R143; 20_memory R59). -/
def State.latch (s : State) : State := { s with out := s.sr }

/-- `PinWrite(pin, level)`: a rising edge of `SHCP` shifts, a rising edge of `STCP` latches, and no other pin event
changes the chain (41 R141, R144; log 11). -/
def State.pinWrite (s : State) (p : Pin) (level : Bool) : State :=
  let t := (s.setLevel p level).record (.pin p level)
  if p = .shcp ∧ s.level p = false ∧ level = true then t.shift
  else if p = .stcp ∧ s.level p = false ∧ level = true then t.latch
  else t

/-! ## The driver's procedures, as scripts of pin writes

An operation's pin writes are a list, so that the states between two micro-steps can be spoken of: the sequencer
position of 10_state R21 is a length of the script already performed (log 14). -/

/-- A sequence of pin writes, the first one first. -/
abbrev PinScript := List (Pin × Bool)

/-- `ShiftBit(b)`: drive the data line, then pulse the shift clock high and low (41 R145). -/
def shiftBit (b : Bool) : PinScript := [(.data, b), (.shcp, true), (.shcp, false)]

/-- `ShiftPattern(P)`: the elements 7 down to 0 (41 R146). -/
def shiftPattern (p : Pattern) : PinScript :=
  [7, 6, 5, 4, 3, 2, 1, 0].flatMap fun i => shiftBit (p.getLsbD i)

/-- `LatchPulse()`: pulse the latch clock high and low once (41 R147). -/
def latchPulse : PinScript := [(.stcp, true), (.stcp, false)]

/-- The pin writes of `SHOUT`: the patterns in the given order, then one latch pulse (41 R149). -/
def shoutScript (ps : List Pattern) : PinScript := ps.flatMap shiftPattern ++ latchPulse

/-- Perform pin writes in order, each complete before the next (20_memory R62). -/
def State.runScript (s : State) (script : PinScript) : State :=
  script.foldl (fun t w => t.pinWrite w.1 w.2) s

/-- What `SHOUT` does to the state (41 R149); `FRAME`, `DISP` and `TIME` end in it. -/
def State.shiftOut (s : State) (ps : List Pattern) : State := s.runScript (shoutScript ps)

/-! ## The sensor -/

/-- `SensorRead()`: one sample, the next given one or, where none is given, a free value in `0..ADC_MAX`; one
micro-step (42 R171; log 4). -/
def State.sensorRead (s : State) : Nat × State :=
  match s.sensor with
  | v :: rest => (v, { s.record (.sensor v) with sensor := rest, sensorReads := s.sensorReads + 1 })
  | [] =>
    let v := Config.freeSample s.sensorReads
    (v, { s.record (.sensor v) with sensorReads := s.sensorReads + 1 })

/-- `n` sequential sensor reads with nothing between them: the sum of the samples and the state after
(42 R172, R177). -/
def State.sumSamples : Nat → State → Nat × State
  | 0, s => (0, s)
  | n + 1, s =>
    let first := s.sensorRead
    let others := State.sumSamples n first.2
    (first.1 + others.1, others.2)

/-! ## The PWM port -/

/-- `setDutyCycle(v)`: replace `PWMDUTY` (42 R179). -/
def State.writePwmDuty (s : State) (v : BitVec 10) : State := { s.record (.pwmDuty v) with pwmDuty := v }

/-- `setFrequency(hz)`: replace `PWMFREQ` (42 R178). -/
def State.writePwmFreq (s : State) (hz : Nat) : State := { s.record (.pwmFreq hz) with pwmFreq := hz }

/-! ## Issuing an operation, its result, and fatal errors -/

/-- `result v`: hand a value back to the host (00_scope R15; 30_encoding R95). -/
def State.give (s : State) (r : OpResult) : State := { s with result := some r }

/-- Start an operation: while `HALT = 1` no operation has a step (60 R226); else it runs, and the result port
holds nothing until the operation puts a value there (30_encoding R95). -/
def issue (s : State) (run : State → Outcome) : Outcome :=
  if s.halt then .fault .halted else run { s with result := none }

/-- `raise`, the entry of a fatal error: `HALT <- 1; CAUSE <- code`, one `TRACE` entry, and nothing else; nothing is
saved and control goes nowhere (60 R224, R225). There is no return from it: the only way out is reset
(60 R227). -/
def State.raise (s : State) (e : FatalError) : State :=
  { s.record (.fault e.code) with halt := true, cause := e.code }

/-- What a check of operands answers: a value, a fatal error to raise, or a refusal (40 R120, R127; 60 R228). -/
inductive Checked (α : Type) where
  | ok (a : α)
  | raise (e : FatalError)
  | refuse (r : Refusal)
deriving DecidableEq, Repr

/-- Go on with a check's value; the first check that is not `ok` decides (60 R228). -/
def Checked.andThen {α β : Type} (c : Checked α) (f : α → Checked β) : Checked β :=
  match c with
  | .ok a => f a
  | .raise e => .raise e
  | .refuse r => .refuse r

/-- Act on a check: a fatal error is raised before any other effect, a refusal sets nothing (60 R225, R229). -/
def Checked.perform {α : Type} (c : Checked α) (s : State) (act : α → State) : Outcome :=
  match c with
  | .ok a => .next (act a)
  | .raise e => .next (s.raise e)
  | .refuse r => .refused r

end Sys2Proof.Machine
end

