-- ==== Sys2Proof/Machine/Brightness.lean ====
section
/-! DEFINITION. The Brightness Controller and the PWM port: `CDUTY`, `PWMF`, `PWMD` (spec 42). The formula is exact
arithmetic on rational numbers (R174; log 12). -/

namespace Sys2Proof.Machine

/-- The average of the samples, the exact rational number `S / 100` (42 R172). -/
def average (sum : Nat) : Rat := (sum : Rat) / (nSamples : Rat)

/-- The formula before the clamp: `floor(CAL_TOP - 1 / ((avg - CAL_OFFSET) / CAL_SCALE))` (42 R174). -/
def rawDuty (sum : Nat) : Int := (calTop - 1 / ((average sum - calOffset) / calScale)).floor

/-- The duty for a sample sum: `DUTY_MIN` below the guard, else the formula clamped (42 R173, R175; the guard comes
before the formula, 70 R278). -/
def dutyOfSum (sum : Nat) : Int :=
  if average sum < avgMin then dutyMin else max dutyMin (min dutyMax (rawDuty sum))

/-- `CDUTY` (42 R177): 100 sensor reads; the duty is handed back, `PWMDUTY` is not written. -/
def execCduty (s : State) : Outcome :=
  issue s fun t =>
    let read := State.sumSamples nSamples t
    .next (read.2.give (.duty (BitVec.ofInt 10 (dutyOfSum read.1))))

/-- `PWMF hz` (42 R178). -/
def execPwmf (hz : Nat) (s : State) : Outcome := issue s fun t => .next (t.writePwmFreq hz)

/-- `PWMD v` (42 R179): the port takes 0 to 1023; a larger value is refused (log 17). -/
def execPwmd (v : Nat) (s : State) : Outcome :=
  issue s fun t => if v ≤ 1023 then .next (t.writePwmDuty (BitVec.ofNat 10 v)) else .refused .dutyOutOfRange

end Sys2Proof.Machine
end

