-- ==== Sys2Proof/Machine/Operands.lean ====
section
/-! DEFINITION. The operand forms: patterns from a digit row, from blank and from a raw list; the encoder
`encode(x, s)` and its `validate(x, s)`; a frame of three assignments; the digits of a time and their assignment to
the three stages (00_scope R16; 40; 43). -/

namespace Sys2Proof.Machine

/-! ## Patterns -/

/-- The pattern with extra bit `x` and the seven segment bits `row`: `P[0] = x`, `P[k+1] = row[k]`, so
`W(P) = x + 2*row` (30_encoding R80, R81; 40 R121). -/
def prependExtra (x : Bool) (row : SegRow) : Pattern := row ++ BitVec.ofBool x

/-- A raw list is valid when it has exactly 8 elements, each 0 or 1 (30_encoding R82; 40 R126). -/
def rawValid (l : List Nat) : Bool := decide (l.length = 8) && l.all fun e => decide (e ≤ 1)

/-- The pattern of a valid raw list: `P[i] = L[i]` (40 R126). -/
def rawPattern (l : List Nat) : Pattern := BitVec.ofNat 8 (l.foldr (fun e rest => e + 2 * rest) 0)

/-! ## The encoder -/

/-- `encode(x, s)` (40 R120, R124, R125, R126): a pattern, `InvalidPatternError`, or a refusal. The raw form ignores
`x` (R121). -/
def encodeSymbol (x : Bool) : Symbol → Checked Pattern
  | .digit d => if h : d < 10 then .ok (prependExtra x (memRead ⟨d, h⟩)) else .refuse .digitOutOfRange
  | .blank => .ok (prependExtra x 0)
  | .raw l => if rawValid l then .ok (rawPattern l) else .raise .invalidPattern

/-- `validate(x, s)`: the encoder's checks without its pattern (40 R127). -/
def validate : Symbol → Checked Unit
  | .digit d => if d ≤ 9 then .ok () else .refuse .digitOutOfRange
  | .blank => .ok ()
  | .raw l => if rawValid l then .ok () else .raise .invalidPattern

/-- The three patterns of a frame: all validation first, stages 0, 1, 2 in order, then the encodings (41 R150;
log 18). -/
def encodeFrame (a0 a1 a2 : Assignment) : Checked (List Pattern) :=
  (validate a0.symbol).andThen fun _ =>
  (validate a1.symbol).andThen fun _ =>
  (validate a2.symbol).andThen fun _ =>
  (encodeSymbol a0.extra a0.symbol).andThen fun p0 =>
  (encodeSymbol a1.extra a1.symbol).andThen fun p1 =>
  (encodeSymbol a2.extra a2.symbol).andThen fun p2 =>
  .ok [p0, p1, p2]

/-! ## The digits of a time -/

/-- The hour-tens check: the digit must be 0 or 1; the answer is the extra bit that carries it (43 R201, R204). -/
def hourTensBit (ht : Nat) : Checked Bool :=
  if ht = 0 then .ok false else if ht = 1 then .ok true else .raise .invalidHourTens

/-- The assignments of four digits to the three stages: `(ht, hu)`, `(1, mt)`, `(1, mu)` (43 R201). -/
def digitStages (ht : Bool) (hu mt mu : Nat) : Assignment × Assignment × Assignment :=
  (⟨ht, .digit hu⟩, ⟨true, .digit mt⟩, ⟨true, .digit mu⟩)

/-- The patterns of `DISP ht, hu, mt, mu`: the hour-tens check first, the digits' range second (43 R202; log 18). -/
def encodeDigits (ht hu mt mu : Nat) : Checked (List Pattern) :=
  (hourTensBit ht).andThen fun x =>
  if 9 < hu ∨ 9 < mt ∨ 9 < mu then .refuse .digitOutOfRange
  else
    let stages := digitStages x hu mt mu
    encodeFrame stages.1 stages.2.1 stages.2.2

/-- The patterns of `TIME h, m`: decompose into tens and units, check the hour-tens digit, then the domain
(43 R200, R203; log 10). -/
def encodeTime (h m : Nat) : Checked (List Pattern) :=
  (hourTensBit (h / 10)).andThen fun _ =>
  if h < 1 ∨ 12 < h ∨ 59 < m then .refuse .timeOutOfRange
  else encodeDigits (h / 10) (h % 10) (m / 10) (m % 10)

end Sys2Proof.Machine
end

