-- ==== Sys2Proof/Machine/Digits.lean ====
section
/-! DEFINITION. Digit Assignment's operations: `DISP`, `TIME` (spec 43). -/

namespace Sys2Proof.Machine

/-- `DISP ht, hu, mt, mu` (43 R202). -/
def execDisp (ht hu mt mu : Nat) (s : State) : Outcome :=
  issue s fun t => (encodeDigits ht hu mt mu).perform t t.shiftOut

/-- `TIME h, m` (43 R203). -/
def execTime (h m : Nat) (s : State) : Outcome :=
  issue s fun t => (encodeTime h m).perform t t.shiftOut

end Sys2Proof.Machine
end

