-- ==== Sys2Proof/Machine/Driver.lean ====
section
/-! DEFINITION. The Shift-Register Driver's operations: `SHOUT`, `FRAME` (spec 41). -/

namespace Sys2Proof.Machine

/-- `SHOUT Ps` (41 R149): no check, no failure path, any number of patterns. -/
def execShout (ps : List Pattern) (s : State) : Outcome := issue s fun t => .next (t.shiftOut ps)

/-- `FRAME a0, a1, a2` (41 R150). -/
def execFrame (a0 a1 a2 : Assignment) (s : State) : Outcome :=
  issue s fun t => (encodeFrame a0 a1 a2).perform t t.shiftOut

end Sys2Proof.Machine
end

