-- ==== Sys2Proof/Machine/Encoder.lean ====
section
/-! DEFINITION. The Segment Encoder's operations: `ENCD`, `ENCB`, `ENCR` (spec 40). -/

namespace Sys2Proof.Machine

/-- Hand the pattern of a symbol back to the host, or raise, or refuse (40 R120). -/
def giveEncoded (x : Bool) (sym : Symbol) (s : State) : Outcome :=
  (encodeSymbol x sym).perform s fun p => s.give (.pattern p)

/-- `ENCD x, d` (40 R124). -/
def execEncd (x : Bool) (d : Nat) (s : State) : Outcome := issue s (giveEncoded x (.digit d))

/-- `ENCB x` (40 R125). -/
def execEncb (x : Bool) (s : State) : Outcome := issue s (giveEncoded x .blank)

/-- `ENCR x, L` (40 R126). -/
def execEncr (x : Bool) (l : List Nat) (s : State) : Outcome := issue s (giveEncoded x (.raw l))

end Sys2Proof.Machine
end

