-- ==== Sys2Proof/Machine/Dispatch.lean ====
section
/-! DEFINITION. The dispatch: one arm per operation (30_encoding R96). -/

namespace Sys2Proof.Machine

def exec (i : Instr) (s : State) : Host.Outcome State Fault Refusal :=
  match i with
  | .encd x d => Sys2Proof.Machine.execEncd x d s
  | .encb x => Sys2Proof.Machine.execEncb x s
  | .encr x l => Sys2Proof.Machine.execEncr x l s
  | .shout ps => Sys2Proof.Machine.execShout ps s
  | .frame a0 a1 a2 => Sys2Proof.Machine.execFrame a0 a1 a2 s
  | .disp ht hu mt mu => Sys2Proof.Machine.execDisp ht hu mt mu s
  | .time h m => Sys2Proof.Machine.execTime h m s
  | .cduty => Sys2Proof.Machine.execCduty s
  | .pwmf hz => Sys2Proof.Machine.execPwmf hz s
  | .pwmd v => Sys2Proof.Machine.execPwmd v s

end Sys2Proof.Machine
end

