-- ==== Sys2Proof/Machine/Fetch.lean ====
section
/-! DEFINITION. Taking the next operation from the host's command stream (30_encoding R85, R99; 70 R275). -/

namespace Sys2Proof.Machine

/-- The next operation of the command stream and the state that has taken its words off; nothing when no command
is pending, an error when the words spell no operation (30_encoding R98). -/
def State.fetch (s : State) : Option (Except BadCommand (Instr × State)) :=
  match s.commands with
  | [] => none
  | ws => some ((decode ws).map fun r => (r.1, { s with commands := r.2 }))

/-- Issue the words of one operation, given as one number, before any pending ones: the header word and as many
operand words as it asks for (30_encoding R85, R99). -/
def State.issueTableWords (s : State) (nbits w : Nat) : State :=
  match tableWords nbits w with
  | [] => s
  | h :: rest => { s with commands := h :: rest.take (operandCount h) ++ s.commands }

end Sys2Proof.Machine
end

