-- ==== Sys2Proof/Machine/Step.lean ====
section
/-! DEFINITION. One step: one operation of the command stream, from its first micro-step to its last
(00_scope R10; log 1, log 14). -/

namespace Sys2Proof.Machine

/-- While `HALT = 1` there is no step (60 R226). With no pending command the block waits for the host and keeps all
its state (60 R237; log 9). Else it performs the next operation. Where the pending words are only the beginning of an
operation, the step takes their end for the end of the stream and refuses them as truncated (30_encoding R98): DESIGN
CHOICE, log 23. -/
def step (s : State) : Host.Outcome State Fault Refusal :=
  if s.halt then .fault .halted
  else
    match s.fetch with
    | none => .next s
    | some (.error why) => .refused (.invalidCommandWord why)
    | some (.ok (i, t)) => exec i t

/-- The state in which the host has issued one operation, so that the next step runs it (log 1). -/
def State.withFetchWord (s : State) (nbits w : Nat) : State := s.issueTableWords nbits w

end Sys2Proof.Machine
end

