-- ==== Sys2Proof/Machine/Display.lean ====
section
/-! DEFINITION. What the outputs mean: which stage of the chain is which position of the display, and what the PWM
registers say (41 R155; 42 R180; 20_memory R55). Views only: no operation reads them. -/

namespace Sys2Proof.Machine

/-- The 24-bit frame word of three patterns: `W(P0)*65536 + W(P1)*256 + W(P2)` (20_memory R55). -/
def frameWord (p0 p1 p2 : Pattern) : Chain :=
  BitVec.ofNat 24 (p0.toNat * 65536 + p1.toNat * 256 + p2.toNat)

/-- The extra bit of the hour stage as displayed, `OUT[16]`: the hour-tens digit (41 R155). -/
def State.shownHourTens (s : State) : Bool := s.out.getLsbD 16

/-- Segments a to g of the hour-units digit, `OUT[17..23]` (41 R155). -/
def State.shownHourUnits (s : State) : SegRow := s.out.extractLsb' 17 7

/-- The extra bit of the minute-tens stage, `OUT[8]` (41 R155). -/
def State.shownMinuteTensExtra (s : State) : Bool := s.out.getLsbD 8

/-- Segments a to g of the minute-tens digit, `OUT[9..15]` (41 R155). -/
def State.shownMinuteTens (s : State) : SegRow := s.out.extractLsb' 9 7

/-- The extra bit of the minute-units stage, `OUT[0]` (41 R155). -/
def State.shownMinuteUnitsExtra (s : State) : Bool := s.out.getLsbD 0

/-- Segments a to g of the minute-units digit, `OUT[1..7]` (41 R155). -/
def State.shownMinuteUnits (s : State) : SegRow := s.out.extractLsb' 1 7

/-- The fraction of each PWM period the PWM output is high: `PWMDUTY / PWM_FULL` (42 R180; log 17). -/
def State.pwmHighFraction (s : State) : Rat := (s.pwmDuty.toNat : Rat) / (pwmFull : Rat)

end Sys2Proof.Machine
end

