-- ==== Sys2Proof/Machine/HostSide.lean ====
section
/-! DEFINITION. What the host does with the operations: it performs one after another and carries the result of one
to the operand of the next; the pseudo-operations and the boot sequence (30_encoding R101; 70 R262, R275; log 21). -/

namespace Sys2Proof.Machine

/-- The host issues command words: they wait behind those it has issued before (30_encoding R85; 70 R275). -/
def State.issueWords (s : State) (words : List CommandWord) : State := { s with commands := s.commands ++ words }

/-- The sensor's next samples become known (42 R171; log 4). -/
def State.giveSamples (s : State) (samples : List Nat) : State := { s with sensor := s.sensor ++ samples }

/-- Go on after an outcome: the host issues the next operation only after the previous one has completed
(70 R275). -/
def thenDo (o : Outcome) (f : State → Outcome) : Outcome :=
  match o with
  | .next s => f s
  | .fault r => .fault r
  | .refused r => .refused r

/-- The operations one after another (70 R275). -/
def performAll : List Instr → State → Outcome
  | [], s => .next s
  | i :: is, s => thenDo (exec i s) (performAll is)

/-- The pseudo-operation `SHOW3 p0, p1, p2` (30_encoding R101). -/
def show3 (p0 p1 p2 : Pattern) : Instr := .shout [p0, p1, p2]

/-- The operation the host issues with the duty it was given: `PWMD r` (30_encoding R101). Where no duty was given
there is nothing to issue. -/
def giveDutyToPwm (s : State) : Outcome :=
  match s.result with
  | some (.duty r) => exec (.pwmd r.toNat) s
  | some (.pattern _) => .next s
  | none => .next s

/-- The pseudo-operation `BRIGHT`: `CDUTY` giving `r`, then `PWMD r` (30_encoding R101). -/
def bright (s : State) : Outcome := thenDo (exec .cduty s) giveDutyToPwm

/-- Steps 3 to 5 of the boot sequence: `PWMF PWM_FREQ_HZ`, `CDUTY`, `PWMD` of its result (70 R262). Step 1 makes the
resources, step 2 is what reset gives, and the frames of step 7 are the host's. -/
def boot (s : State) : Outcome := thenDo (exec (.pwmf Config.pwmFreqHz) s) bright

end Sys2Proof.Machine
end

