-- ==== Sys2Proof/Safety.lean ====
section
/-! DEFINITION. The terms the claims use: the machine's invariant, what a trace says of the state, and what the
spec says of the wire and of the chain after a shift-out (10_state R23, R33; 41 R151, R152; 60 R220 to R226). -/

namespace Sys2Proof.Machine

/-! ## The invariant -/

/-- Both clock pins are low, as between operations (10_state R23). -/
def State.pinsIdle (s : State) : Prop := s.shcp = false ∧ s.stcp = false

/-- `HALT` and `CAUSE` go together, and `CAUSE` is never 3 (10_state R30, R31; 60 R223). -/
def State.statusLegal (s : State) : Prop :=
  (s.halt = false ∧ s.cause = 0) ∨ (s.halt = true ∧ (s.cause = 1 ∨ s.cause = 2))

/-- `TRACE` and the status agree: a fault entry stands in it exactly when `HALT = 1`, and then it is the last entry
and holds `CAUSE` (10_state R33; 60 R224, R227). -/
def State.traceStatusLegal (s : State) : Prop :=
  (s.halt = false → ∀ c, TraceEntry.fault c ∉ s.trace) ∧
  (s.halt = true → ∃ t, s.trace = t ++ [.fault s.cause] ∧ ∀ c, TraceEntry.fault c ∉ t)

/-- Every sample, given or read, is in `0..ADC_MAX` (42 R171). -/
def State.samplesLegal (s : State) : Prop :=
  (∀ v ∈ s.sensor, v ≤ Config.adcMax) ∧ ∀ v, TraceEntry.sensor v ∈ s.trace → v ≤ Config.adcMax

/-- A duty on the result port is in `1..1022` (30_encoding R95). -/
def State.resultLegal (s : State) : Prop :=
  ∀ v : BitVec 10, s.result = some (.duty v) → 1 ≤ v.toNat ∧ v.toNat ≤ 1022

/-- What holds of the state between operations. -/
structure State.Inv (s : State) : Prop where
  pins : s.pinsIdle
  status : s.statusLegal
  traceStatus : s.traceStatusLegal
  samples : s.samplesLegal
  result : s.resultLegal

/-- The state after a fatal error with this code: `HALT`, `CAUSE`, one trace entry, no result, and everything else as
it was (60 R224, R225). -/
def State.afterFault (s : State) (code : BitVec 2) : State :=
  { s with halt := true, cause := code, trace := s.trace ++ [.fault code], result := none }

/-! ## What the trace says -/

/-- The effect of one recorded micro-step on the pins, the chain, the PWM registers and the status (10_state R33). -/
def State.replayEntry (s : State) : TraceEntry → State
  | .pin p level => s.pinWrite p level
  | .sensor v => s.record (.sensor v)
  | .pwmDuty v => s.writePwmDuty v
  | .pwmFreq hz => s.writePwmFreq hz
  | .fault c => { s.record (.fault c) with halt := true, cause := c }

/-- The effects of recorded micro-steps, the first one first. -/
def State.replay (s : State) (entries : List TraceEntry) : State := entries.foldl State.replayEntry s

/-- Two states agree on every piece of state the spec gives the machine but the result port: pins, chain, PWM
registers, status and trace (10_state R22 to R33). -/
def State.sameCore (s t : State) : Prop :=
  s.data = t.data ∧ s.shcp = t.shcp ∧ s.stcp = t.stcp ∧ s.sr = t.sr ∧ s.out = t.out ∧ s.pwmDuty = t.pwmDuty ∧
  s.pwmFreq = t.pwmFreq ∧ s.halt = t.halt ∧ s.cause = t.cause ∧ s.trace = t.trace

/-- The trace entries of pin writes (10_state R33). -/
def pinEntries (script : PinScript) : List TraceEntry := script.map fun w => .pin w.1 w.2

/-! ## The wire and the chain -/

/-- The bits of patterns in time order on the data line: pattern 0 first, element 7 first (30_encoding R84). -/
def wireBits (ps : List Pattern) : List Bool :=
  ps.flatMap fun p => [p.getLsbD 7, p.getLsbD 6, p.getLsbD 5, p.getLsbD 4, p.getLsbD 3, p.getLsbD 2, p.getLsbD 1,
    p.getLsbD 0]

/-- The level of `DATA` at each rising edge of `SHCP` while a script is performed (41 R152). -/
def sampledBits (s : State) : PinScript → List Bool
  | [] => []
  | w :: ws =>
    (if w = (.shcp, true) ∧ s.shcp = false then [s.data] else []) ++ sampledBits (s.pinWrite w.1 w.2) ws

/-- The chain after shifting in patterns:
`(SR_old * 2^(8N) + W(P_0)*2^(8(N-1)) + ... + W(P_{N-1})) mod 2^24` (41 R151). -/
def chainAfter (sr : Chain) (ps : List Pattern) : Chain :=
  BitVec.ofNat 24 (ps.foldl (fun acc p => acc * 256 + p.toNat) sr.toNat)

/-- The level of `DATA` after shifting out patterns: element 0 of the last one, or the old level (41 R151). -/
def dataAfter (old : Bool) (ps : List Pattern) : Bool := (ps.map fun p => p.getLsbD 0).getLastD old

/-- The end state of `SHOUT` begun with both clock pins low (41 R151). -/
def State.afterShout (s : State) (ps : List Pattern) : State :=
  { s with
    data := dataAfter s.data ps
    shcp := false
    stcp := false
    sr := chainAfter s.sr ps
    out := chainAfter s.sr ps
    trace := s.trace ++ pinEntries (shoutScript ps)
    result := none }

/-- The value of the `k`-th sensor read from now: the given sample, or the free value of that read
(42 R171; log 4). -/
def State.sampleAt (s : State) (k : Nat) : Nat :=
  if h : k < s.sensor.length then s.sensor[k] else Config.freeSample (s.sensorReads + k)

/-- The values of the next `n` sensor reads, the first one first (42 R172). -/
def State.nextSamples (s : State) (n : Nat) : List Nat := (List.range n).map s.sampleAt

/-- The end state of `CDUTY` (42 R177): 100 sensor entries in the trace, the duty on the result port, and nothing
else of the machine. -/
def State.afterCduty (s : State) : State :=
  { s with
    trace := s.trace ++ (s.nextSamples 100).map .sensor
    result := some (.duty (BitVec.ofInt 10 (dutyOfSum (s.nextSamples 100).sum)))
    sensor := s.sensor.drop 100
    sensorReads := s.sensorReads + 100 }

/-! ## The operation map -/

/-- The match and the mask of an operation's header word, as the operation map has them (30_encoding R96). -/
def headerRow : Instr → CommandWord × CommandWord
  | .encd _ _ => (0x10000000, 0xFDE1FFFF)
  | .encb _ => (0x14000000, 0xFDFFFFFF)
  | .encr _ _ => (0x18000000, 0xFC1F0000)
  | .shout _ => (0x20000000, 0xF00FFFFF)
  | .frame _ _ _ => (0x30000000, 0xFFFFFFFF)
  | .disp _ _ _ _ => (0x40000000, 0xFFFF0000)
  | .time _ _ => (0x50000000, 0xFFFFC0C0)
  | .cduty => (0x60000000, 0xFFFFFFFF)
  | .pwmf _ => (0x70000000, 0xF0000000)
  | .pwmd _ => (0x80000000, 0xFFFFFC00)

end Sys2Proof.Machine
end

