-- ==== Sys2Proof/Certificates/Slice0/Obligations.lean ====
section
/-! DEFINITION. The statements about the model. Each docstring names the rules of spec/ it formalises. Where it says
"the spec's own decision" (or derivation), the clause rests on what the spec marks as its own choice (92_eei_decisions
D<n>) or its own inference, not on the source's words. -/

open Sys2Proof Sys2Proof.Machine

/-! ## The Segment Encoder -/

/-- `ENCD x, d` with a digit 0 to 9 completes: the result port holds `[x]` and the seven bits of the ROM row, that
is the word `x + 2*row`, and nothing else changes (40 section 3; the ROM's contents have no part in it). -/
def Obligations.EncdGivesRowWithExtraBit : Prop :=
  ∀ (s : State) (x : Bool) (d : Fin 10), s.halt = false →
    ∃ w : Pattern, exec (.encd x d.val) s = .next { s with result := some (.pattern w) } ∧
      w.getLsbD 0 = x ∧ (∀ k < 7, w.getLsbD (k + 1) = (memRead d).getLsbD k) ∧
      w.toNat = x.toNat + 2 * (memRead d).toNat

/-- `ENCD x, d` with `d` above 9 is refused `DigitOutOfRange` (the spec's own decision D4). -/
def Obligations.EncdRefusesNonDigits : Prop :=
  ∀ (s : State) (x : Bool) (d : Nat), s.halt = false → 9 < d → exec (.encd x d) s = .refused .digitOutOfRange

/-- R125 whole: `ENCB x` has the word of format `ENC`, kind 01, and completes: the result is `[x,0,0,0,0,0,0,0]`, the
word `x`, and nothing else changes. -/
def Obligations.EncbGivesExtraBitAlone : Prop :=
  ∀ (s : State) (x : Bool), s.halt = false →
    exec (.encb x) s = .next { s with result := some (.pattern (BitVec.ofNat 8 x.toNat)) } ∧
    (∀ k, 1 ≤ k → (BitVec.ofNat 8 x.toNat : Pattern).getLsbD k = false) ∧
    (BitVec.ofNat 8 x.toNat : Pattern).getLsbD 0 = x ∧
    encode (.encb x) = [BitVec.ofNat 32 (0x14000000 + x.toNat * 0x02000000)]

/-- R126 whole: `ENCR x, L` has a word of format `ENC`, kind 10; a list of 8 elements, each 0 or 1, is handed back
unchanged whatever `x` is, and nothing else changes; any other list raises `InvalidPatternError`, with `HALT`,
`CAUSE` and one trace entry written and nothing else. -/
def Obligations.EncrPassesValidListElseFaults : Prop :=
  ∀ (s : State) (x : Bool) (l : List Nat), s.halt = false →
    (l.length = 8 ∧ (∀ e ∈ l, e = 0 ∨ e = 1) →
      ∃ w : Pattern, exec (.encr x l) s = .next { s with result := some (.pattern w) } ∧
        ∀ i < 8, l[i]? = some (w.getLsbD i).toNat) ∧
    (l.length ≠ 8 ∨ (∃ e ∈ l, e ≠ 0 ∧ e ≠ 1) → exec (.encr x l) s = .next (s.afterFault 1)) ∧
    ∃ w : CommandWord, encode (.encr x l) = [w] ∧ field w 31 28 = 1 ∧ field w 27 26 = 2 ∧
      field w 25 25 = x.toNat ∧ field w 24 21 = min l.length 15 ∧
      ∀ i < 8, field w 15 0 / 4 ^ i % 4 = (l[i]?.map fun e => min e 3).getD 0

/-- R121 whole: for the digit and blank forms element 0 of the result is exactly `x` and elements 1 to 7 do not
depend on `x`; the raw form ignores `x`, and its own element 0 is its extra bit. -/
def Obligations.ExtraBitIndependentOfSymbol : Prop :=
  ∀ s : State, s.halt = false →
    (∀ d : Fin 10, ∃ row : SegRow, ∀ x, ∃ w : Pattern,
      exec (.encd x d.val) s = .next { s with result := some (.pattern w) } ∧
      w.getLsbD 0 = x ∧ ∀ k < 7, w.getLsbD (k + 1) = row.getLsbD k) ∧
    (∃ row : SegRow, ∀ x, ∃ w : Pattern, exec (.encb x) s = .next { s with result := some (.pattern w) } ∧
      w.getLsbD 0 = x ∧ ∀ k < 7, w.getLsbD (k + 1) = row.getLsbD k) ∧
    (∀ l, exec (.encr true l) s = exec (.encr false l) s) ∧
    ∀ (x : Bool) (l : List Nat), l.length = 8 → (∀ e ∈ l, e = 0 ∨ e = 1) →
      ∃ w : Pattern, exec (.encr x l) s = .next { s with result := some (.pattern w) } ∧
        l.head? = some (w.getLsbD 0).toNat

/-- R128 whole, of the function `encode`: for every digit and extra bit the pattern is the extra bit and the digit's
row of the table; for every raw list that is malformed it fails with `InvalidPatternError`. -/
def Obligations.EncoderTableAndMalformedRaw : Prop :=
  (∀ (d : Fin 10) (x : Bool), ∃ w : Pattern, encodeSymbol x (.digit d.val) = .ok w ∧
    w.getLsbD 0 = x ∧ ∀ k < 7, w.getLsbD (k + 1) = (segRow d).getLsbD k) ∧
  ∀ (x : Bool) (l : List Nat), l.length ≠ 8 ∨ (∃ e ∈ l, e ≠ 0 ∧ e ≠ 1) →
    encodeSymbol x (.raw l) = .raise .invalidPattern

/-- `validate` answers what `encode` would, without its pattern (the spec's own derivation, 40 R127). -/
def Obligations.ValidateAgreesWithEncode : Prop :=
  ∀ (x : Bool) (sym : Symbol), validate sym = (encodeSymbol x sym).andThen fun _ => .ok ()

/-! ## The pins, the chain and the driver -/

/-- R141 whole: a pin write sets that pin alone and appends one trace entry; a rising edge of the shift clock shifts,
a rising edge of the latch clock latches, every other case leaves the chain; nothing else changes. -/
def Obligations.PinWriteReactsToRisingEdges : Prop :=
  ∀ (s : State) (p : Pin) (b : Bool),
    (s.pinWrite p b).level p = b ∧ (∀ q, q ≠ p → (s.pinWrite p b).level q = s.level q) ∧
    (s.pinWrite p b).trace = s.trace ++ [.pin p b] ∧
    (p = .shcp ∧ s.level p = false ∧ b = true →
      (s.pinWrite p b).sr = s.shift.sr ∧ (s.pinWrite p b).out = s.out) ∧
    (p = .stcp ∧ s.level p = false ∧ b = true →
      (s.pinWrite p b).out = s.latch.out ∧ (s.pinWrite p b).sr = s.sr) ∧
    (p = .data ∨ s.level p = true ∨ b = false →
      (s.pinWrite p b).sr = s.sr ∧ (s.pinWrite p b).out = s.out) ∧
    (s.pinWrite p b).pwmDuty = s.pwmDuty ∧ (s.pinWrite p b).pwmFreq = s.pwmFreq ∧
    (s.pinWrite p b).halt = s.halt ∧ (s.pinWrite p b).cause = s.cause ∧ (s.pinWrite p b).result = s.result ∧
    (s.pinWrite p b).commands = s.commands ∧ (s.pinWrite p b).sensor = s.sensor ∧
    (s.pinWrite p b).sensorReads = s.sensorReads

/-- A shift moves every stage to the next one, takes `DATA` into stage 0 and loses the bit of stage 23; a latch
copies all 24 stages at once (41 R142, R143; the lost bit and the latch's edge are the spec's own decisions D7,
D8). -/
def Obligations.ShiftAndLatchByStage : Prop :=
  ∀ s : State,
    (∀ j, 1 ≤ j → j < 24 → s.shift.sr.getLsbD j = s.sr.getLsbD (j - 1)) ∧ s.shift.sr.getLsbD 0 = s.data ∧
    s.shift.out = s.out ∧ (∀ j < 24, s.latch.out.getLsbD j = s.sr.getLsbD j) ∧ s.latch.sr = s.sr

/-- R145 whole: `ShiftBit(b)` is three micro-steps, also when `DATA` has the level `b`; begun with the shift clock
low it performs exactly one shift with `DATA = b` and ends with the shift clock low. -/
def Obligations.ShiftBitIsOneShift : Prop :=
  ∀ (s : State) (b : Bool),
    shiftBit b = [(.data, b), (.shcp, true), (.shcp, false)] ∧
    (s.shcp = false →
      s.runScript (shiftBit b) = { State.shift { s with data := b } with
        trace := s.trace ++ [.pin .data b, .pin .shcp true, .pin .shcp false] })

/-- R147 whole: `LatchPulse()` writes the latch clock high and low; begun with it low it performs exactly one latch
and ends with it low. -/
def Obligations.LatchPulseIsOneLatch : Prop :=
  latchPulse = [(.stcp, true), (.stcp, false)] ∧
  ∀ s : State, s.stcp = false →
    s.runScript latchPulse = { s.latch with trace := s.trace ++ [.pin .stcp true, .pin .stcp false] }

/-- `ShiftPattern(P)` begun with the shift clock low: stages 0 to 7 hold `P`, the older bits moved up by 8, the
outputs and the latch clock unchanged (the spec's own derivation, 41 R146). -/
def Obligations.ShiftPatternMovesChainByEight : Prop :=
  ∀ (s : State) (p : Pattern), s.shcp = false →
    (∀ i < 8, (s.runScript (shiftPattern p)).sr.getLsbD i = p.getLsbD i) ∧
    (∀ j, 8 ≤ j → j < 24 → (s.runScript (shiftPattern p)).sr.getLsbD j = s.sr.getLsbD (j - 8)) ∧
    (s.runScript (shiftPattern p)).out = s.out ∧ (s.runScript (shiftPattern p)).shcp = false ∧
    (s.runScript (shiftPattern p)).stcp = s.stcp

/-- R53 whole: the bits of a pattern that the chain samples are element 7 first and element 0 last, so segment g is
the first on the wire and the extra bit the last. -/
def Obligations.PatternSentMostSignificantFirst : Prop :=
  ∀ (s : State) (p : Pattern), s.shcp = false →
    (sampledBits s (shiftPattern p)).length = 8 ∧
    ∀ i < 8, (sampledBits s (shiftPattern p))[i]? = some (p.getLsbD (7 - i))

/-- R84 whole: bit `t` on the wire is `P_k[7 - (t mod 8)]` with `k = t div 8`; for each bit there is one write of
`DATA`, then the shift clock high, then low, and after the last bit the latch clock high, then low; for three
patterns wire bit `t` ends in stage `23 - t`. -/
def Obligations.FrameOnTheWire : Prop :=
  ∀ (s : State) (ps : List Pattern), s.pinsIdle →
    (sampledBits s (shoutScript ps)).length = 8 * ps.length ∧
    (∀ t < 8 * ps.length, (sampledBits s (shoutScript ps))[t]? =
      (ps[t / 8]?).map fun p => p.getLsbD (7 - t % 8)) ∧
    shoutScript ps =
      (sampledBits s (shoutScript ps)).flatMap (fun b => [(.data, b), (.shcp, true), (.shcp, false)]) ++
        [(.stcp, true), (.stcp, false)] ∧
    (ps.length = 3 → s.halt = false → ∃ t, exec (.shout ps) s = .next t ∧
      ∀ k < 24, (sampledBits s (shoutScript ps))[k]? = some (t.sr.getLsbD (23 - k)))

/-- `SHOUT` of any number of patterns completes, begun with both clock pins low, in the end state of 41 R151: the
chain holds the old bits moved up by `8N` and the patterns, the outputs equal the chain, the clocks are low, `DATA`
is element 0 of the last pattern; only the pins, the chain and the trace change (the spec's own derivation). -/
def Obligations.ShoutEndState : Prop :=
  ∀ (s : State) (ps : List Pattern), s.halt = false → s.pinsIdle → exec (.shout ps) s = .next (s.afterShout ps)

/-- The end state of `SHOUT` stage by stage: stage `j` below `8N` holds bit `j mod 8` of pattern `N-1-(j div 8)`, the
others the old stage `j - 8N` (the spec's own derivation, 41 R151). -/
def Obligations.ShoutEndStateByStage : Prop :=
  ∀ (s : State) (ps : List Pattern), s.halt = false → s.pinsIdle → ∃ t, exec (.shout ps) s = .next t ∧
    t.out = t.sr ∧ ∀ j < 24,
      (j < 8 * ps.length → some (t.sr.getLsbD j) = (ps[ps.length - 1 - j / 8]?).map fun p => p.getLsbD (j % 8)) ∧
      (8 * ps.length ≤ j → t.sr.getLsbD j = s.sr.getLsbD (j - 8 * ps.length))

/-- R54 whole: patterns are sent in the given order, pattern 0 first, and after a frame of three patterns stages
16 to 23 hold pattern 0, stages 8 to 15 pattern 1 and stages 0 to 7 pattern 2. -/
def Obligations.FramePatternOrder : Prop :=
  ∀ (s : State) (p0 p1 p2 : Pattern), s.halt = false → s.pinsIdle →
    (∃ t, exec (.shout [p0, p1, p2]) s = .next t ∧
      ∀ i < 8, t.sr.getLsbD (16 + i) = p0.getLsbD i ∧ t.sr.getLsbD (8 + i) = p1.getLsbD i ∧
        t.sr.getLsbD i = p2.getLsbD i) ∧
    sampledBits s (shoutScript [p0, p1, p2]) =
      sampledBits s (shiftPattern p0) ++ sampledBits s (shiftPattern p1) ++ sampledBits s (shiftPattern p2)

/-- After `SHOUT` of three patterns both the chain and the outputs are the frame word, whatever they held (the
spec's own derivation, 20_memory R55). -/
def Obligations.FrameWordReachesOutputs : Prop :=
  ∀ (s : State) (p0 p1 p2 : Pattern), s.halt = false → s.pinsIdle →
    ∃ t, exec (.shout [p0, p1, p2]) s = .next t ∧ t.sr = frameWord p0 p1 p2 ∧ t.out = frameWord p0 p1 p2 ∧
      t.pinsIdle ∧ t.data = p2.getLsbD 0

/-- A shift-out of `N` patterns is `24N + 2` pin writes: `8N` of `DATA`, `8N` of the shift clock to each level, then
one latch pulse; no write of the latch clock comes before it; and its micro-steps are what the trace gains (the
spec's own derivation, 41 R152). -/
def Obligations.ShoutPinWriteCounts : Prop :=
  ∀ (s : State) (ps : List Pattern), s.halt = false → ∃ t, exec (.shout ps) s = .next t ∧
    t.trace = s.trace ++ pinEntries (shoutScript ps) ∧ (shoutScript ps).length = 24 * ps.length + 2 ∧
    (shoutScript ps).countP (fun w => w.1 == .data) = 8 * ps.length ∧
    (shoutScript ps).count (.shcp, true) = 8 * ps.length ∧ (shoutScript ps).count (.shcp, false) = 8 * ps.length ∧
    ∃ before, shoutScript ps = before ++ [(.stcp, true), (.stcp, false)] ∧ ∀ w ∈ before, w.1 ≠ Pin.stcp

/-- No partial frame is visible: after any number of `SHOUT`'s micro-steps before the latch pulse the outputs are
the old ones, and begun with the clocks low they are the whole new frame from the latch clock's rising edge on (the
spec's own derivation, 41 R154). -/
def Obligations.PartialFramesNeverVisible : Prop :=
  ∀ (s : State) (ps : List Pattern) (k : Nat),
    (k ≤ 24 * ps.length → (s.runScript ((shoutScript ps).take k)).out = s.out) ∧
    (24 * ps.length < k → s.pinsIdle → (s.runScript ((shoutScript ps).take k)).out = chainAfter s.sr ps)

/-- Sending a frame of three or more patterns, or of none, twice leaves the pins, the chain and the outputs as
sending it once; for one pattern it does not in general (the spec's own derivation, 41 R153). -/
def Obligations.WholeFrameIdempotent : Prop :=
  (∀ (s t u : State) (ps : List Pattern), s.pinsIdle → (3 ≤ ps.length ∨ ps = []) →
    exec (.shout ps) s = .next t → exec (.shout ps) t = .next u →
    u.sr = t.sr ∧ u.out = t.out ∧ u.data = t.data ∧ u.shcp = t.shcp ∧ u.stcp = t.stcp) ∧
  ∃ (s t u : State) (p : Pattern), s.pinsIdle ∧ exec (.shout [p]) s = .next t ∧ exec (.shout [p]) t = .next u ∧
    u.out ≠ t.out

/-- Clock pins must idle low: a `SHOUT` begun with the latch clock high latches nothing, and one of three patterns
begun with the shift clock high loses its first bit, so that stage 23 ends with the old stage 0 (the spec's own
derivation, 70 R273, R261). -/
def Obligations.HighClockSwallowsPulse : Prop :=
  (∀ (s : State) (ps : List Pattern), s.halt = false → s.stcp = true →
    ∃ t, exec (.shout ps) s = .next t ∧ t.out = s.out ∧ t.stcp = false) ∧
  ∀ (s : State) (p0 p1 p2 : Pattern), s.halt = false → s.shcp = true → s.stcp = false →
    ∃ t, exec (.shout [p0, p1, p2]) s = .next t ∧ t.sr.getLsbD 23 = s.sr.getLsbD 0 ∧
      (∀ j < 23, t.sr.getLsbD j = (frameWord p0 p1 p2).getLsbD j) ∧ t.out = t.sr ∧ t.shcp = false

/-- `FRAME` of three assignments that encode completes, begun with the clocks low, as the `SHOUT` of their patterns
(41 section 3; the operation is the spec's own, D24). -/
def Obligations.FrameShiftsItsEncodings : Prop :=
  ∀ (s : State) (a0 a1 a2 : Assignment) (p0 p1 p2 : Pattern), s.halt = false → s.pinsIdle →
    encodeSymbol a0.extra a0.symbol = .ok p0 → encodeSymbol a1.extra a1.symbol = .ok p1 →
    encodeSymbol a2.extra a2.symbol = .ok p2 →
    exec (.frame a0 a1 a2) s = .next (s.afterShout [p0, p1, p2])

/-- `FRAME` examines stages 0, 1, 2 in order: the first one that is not valid decides between
`InvalidPatternError`, raised with no pin write, and the refusal (the spec's own decision D10). -/
def Obligations.FrameFirstBadStageDecides : Prop :=
  ∀ (s : State) (a0 a1 a2 : Assignment) (bad : Assignment), s.halt = false →
    (bad = a0 ∨ (validate a0.symbol = .ok () ∧ bad = a1) ∨
      (validate a0.symbol = .ok () ∧ validate a1.symbol = .ok () ∧ bad = a2)) →
    (∀ l, bad.symbol = .raw l → l.length ≠ 8 ∨ (∃ e ∈ l, e ≠ 0 ∧ e ≠ 1) →
      exec (.frame a0 a1 a2) s = .next (s.afterFault 1)) ∧
    ∀ d, bad.symbol = .digit d → 9 < d → exec (.frame a0 a1 a2) s = .refused .digitOutOfRange

/-- `FRAME` seen as a macro: where the encoder operations on its three assignments give patterns, it is the `SHOUT`
of those patterns (the spec's own expansion, 30_encoding R101, decision D6). -/
def Obligations.FrameIsEncodersThenShout : Prop :=
  ∀ (s t0 t1 t2 : State) (a0 a1 a2 : Assignment) (p0 p1 p2 : Pattern),
    exec (encoderInstr a0) s = .next t0 → t0.result = some (.pattern p0) →
    exec (encoderInstr a1) t0 = .next t1 → t1.result = some (.pattern p1) →
    exec (encoderInstr a2) t1 = .next t2 → t2.result = some (.pattern p2) →
    exec (.frame a0 a1 a2) s = exec (.shout [p0, p1, p2]) t2

/-! ## Digit assignment -/

/-- `DISP` of an hour-tens bit and three digits completes, begun with the clocks low, as the `SHOUT` of the three
patterns of 43 R201, the hour-tens digit in the extra bit of the hour-units stage (43 section 2). -/
def Obligations.DispShowsFourDigits : Prop :=
  ∀ (s : State) (ht : Bool) (hu mt mu : Fin 10), s.halt = false → s.pinsIdle →
    exec (.disp ht.toNat hu.val mt.val mu.val) s = .next (s.afterShout
      [prependExtra ht (memRead hu), prependExtra true (memRead mt), prependExtra true (memRead mu)])

/-- R201 whole: the hour-tens digit is the extra bit of stage 0 with hour-units as its symbol; stages 1 and 2 are
`(1, minute-tens)` and `(1, minute-units)`, in this order. -/
def Obligations.DigitsAssignedToStages : Prop :=
  ∀ (s : State) (ht : Bool) (hu mt mu : Nat),
    exec (.disp ht.toNat hu mt mu) s =
      exec (.frame ⟨ht, .digit hu⟩ ⟨true, .digit mt⟩ ⟨true, .digit mu⟩) s

/-- R204 whole: an hour-tens digit of 0 or 1 is accepted and any other fails fast: `DISP` and `TIME` raise
`InvalidHourTensError` before any pin write, whatever their other operands are. -/
def Obligations.HourTensValidated : Prop :=
  ∀ s : State, s.halt = false →
    (∀ ht hu mt mu, ht ≠ 0 → ht ≠ 1 → exec (.disp ht hu mt mu) s = .next (s.afterFault 2)) ∧
    (∀ h m, h / 10 ≠ 0 → h / 10 ≠ 1 → exec (.time h m) s = .next (s.afterFault 2)) ∧
    (∀ ht, ht = 0 ∨ ht = 1 → ∀ hu mt mu : Fin 10, ∃ t, exec (.disp ht hu.val mt.val mu.val) s = .next t ∧
      t.halt = false) ∧
    ∀ h m, 1 ≤ h → h ≤ 12 → m ≤ 59 → ∃ t, exec (.time h m) s = .next t ∧ t.halt = false

/-- With an hour-tens digit 0 or 1, `DISP` with another digit above 9 and `TIME` outside the hours 1 to 12 and the
minutes 0 to 59 are refused (the spec's own decisions D4, D10, D18). -/
def Obligations.DispAndTimeRefusals : Prop :=
  ∀ s : State, s.halt = false →
    (∀ ht hu mt mu, ht = 0 ∨ ht = 1 → 9 < hu ∨ 9 < mt ∨ 9 < mu →
      exec (.disp ht hu mt mu) s = .refused .digitOutOfRange) ∧
    ∀ h m, h < 20 → h = 0 ∨ 12 < h ∨ 59 < m → exec (.time h m) s = .refused .timeOutOfRange

/-- R200 whole: a time is decomposed into tens and units by `div` and `mod` 10, with the ranges the rule gives, and
`TIME` shows those four digits. -/
def Obligations.TimeDecomposedIntoDigits : Prop :=
  ∀ (s : State) (h m : Nat), 1 ≤ h → h ≤ 12 → m ≤ 59 →
    exec (.time h m) s = exec (.disp (h / 10) (h % 10) (m / 10) (m % 10)) s ∧
    (h / 10 = 0 ∨ h / 10 = 1) ∧ h % 10 ≤ 9 ∧ m / 10 ≤ 5 ∧ m % 10 ≤ 9

/-- `TIME h, m` for a 12-hour time completes, begun with the clocks low, and the display then shows it: the extra
bit of the hour stage is the hour-tens digit, the three digit positions are the ROM rows of hour-units, minute-tens
and minute-units, the extra bits of the minute stages are 1, the clocks are low, and the PWM registers and the
status are as before (41 R155, 95 property 4: the spec's own derivation). -/
def Obligations.TimeShownOnDisplay : Prop :=
  ∀ (s : State) (h m : Nat), s.halt = false → s.pinsIdle → 1 ≤ h → h ≤ 12 → m ≤ 59 →
    ∃ (t : State) (hu mt mu : Fin 10), exec (.time h m) s = .next t ∧
      hu.val = h % 10 ∧ mt.val = m / 10 ∧ mu.val = m % 10 ∧
      t.shownHourTens = decide (h / 10 = 1) ∧ t.shownHourUnits = memRead hu ∧
      t.shownMinuteTensExtra = true ∧ t.shownMinuteTens = memRead mt ∧
      t.shownMinuteUnitsExtra = true ∧ t.shownMinuteUnits = memRead mu ∧
      t.sr = t.out ∧ t.pinsIdle ∧ t.halt = false ∧ t.cause = s.cause ∧ t.pwmDuty = s.pwmDuty ∧
      t.pwmFreq = s.pwmFreq ∧ t.trace.length = s.trace.length + 74

/-! ## Brightness and the PWM port -/

/-- `CDUTY` completes: exactly 100 sensor reads, one trace entry each in order, the duty of their sum on the result
port; the pins, the chain, the PWM registers and the status are unchanged (42 R172, R177; the sample's type and the
exact arithmetic are the spec's own decisions D13, D14). -/
def Obligations.CdutyReadsHundredSamples : Prop :=
  ∀ s : State, s.halt = false → exec .cduty s = .next s.afterCduty

/-- R170 whole: the duty is in `1..1022`, there is no error path, nothing is held between calls, and the result is a
function of the sum of the 100 samples only. -/
def Obligations.CdutyDependsOnSampleSumOnly : Prop :=
  ∀ s t : State, s.halt = false → t.halt = false → (s.nextSamples 100).sum = (t.nextSamples 100).sum →
    ∃ (u v : State) (r : BitVec 10), exec .cduty s = .next u ∧ exec .cduty t = .next v ∧
      u.result = some (.duty r) ∧ v.result = some (.duty r) ∧ 1 ≤ r.toNat ∧ r.toNat ≤ 1022

/-- R173 whole: an average below 15, a sum below 1500, gives the minimum duty 1 without the formula; a sum of 1500
takes the formula branch; the guard keeps every such average above the singularity at the calibration offset
10.1991. -/
def Obligations.LowAverageGivesMinimumDuty : Prop :=
  (∀ sum : Nat, average sum < 15 ↔ sum < 1500) ∧ (∀ sum < 1500, dutyOfSum sum = 1) ∧
  calOffset = 101991 / 10000 ∧
  ∀ sum ≥ 1500, dutyOfSum sum = max 1 (min 1022 (rawDuty sum)) ∧ calOffset < average sum

/-- The clamp: the result is in `1..1022`; the lower clamp acts exactly for the sums 1500 to 2515, where the formula
runs from -2161 to 0; the upper clamp never acts under exact arithmetic (42 R175; the exact arithmetic is the spec's
own decision D14). -/
def Obligations.ClampActsOnlyBelow : Prop :=
  (∀ sum, 1 ≤ dutyOfSum sum ∧ dutyOfSum sum ≤ 1022) ∧ rawDuty 1500 = -2161 ∧ rawDuty 2515 = 0 ∧
  rawDuty 2516 = 1 ∧ ∀ sum ≥ 1500, rawDuty sum ≤ 1022 ∧ (rawDuty sum < 1 ↔ sum ≤ 2515)

/-- The formula over the rational numbers and the integer form a circuit would build agree for every sum (the spec's
own derivation, 42 R176, for the default calibration constants). -/
def Obligations.DutyIntegerClosedForm : Prop :=
  ∀ sum ≥ 1500, rawDuty sum = 1022 - (152840000 / (100 * sum - 101991) : Nat) ∧
    dutyOfSum sum = max 1 (1022 - (152840000 / (100 * sum - 101991) : Nat) : Int)

/-- A larger sum never gives a smaller duty; the first sum with duty above 1 is 2517 and the first with duty 1022 is
1529420 (the spec's own derivation, 42 R181). -/
def Obligations.DutyNondecreasing : Prop :=
  (∀ a b : Nat, a ≤ b → dutyOfSum a ≤ dutyOfSum b) ∧ (∀ sum, 1 < dutyOfSum sum ↔ 2517 ≤ sum) ∧
  ∀ sum, dutyOfSum sum = 1022 ↔ 1529420 ≤ sum

/-- `PWMF hz` completes for every `hz`: the frequency register and one trace entry, nothing else (42 R178, the
spec's own decision D16). -/
def Obligations.PwmfWritesFrequency : Prop :=
  ∀ (s : State) (hz : Nat), s.halt = false →
    exec (.pwmf hz) s = .next { s with pwmFreq := hz, trace := s.trace ++ [.pwmFreq hz], result := none }

/-- `PWMD v` completes for `v` in `0..1023`, both ends included: the duty register and one trace entry, nothing else;
above 1023 it is refused (42 R179, the spec's own decision D16). -/
def Obligations.PwmdWritesDuty : Prop :=
  ∀ (s : State) (v : Nat), s.halt = false →
    (v ≤ 1023 → ∃ r : BitVec 10, r.toNat = v ∧
      exec (.pwmd v) s = .next { s with pwmDuty := r, trace := s.trace ++ [.pwmDuty r], result := none }) ∧
    (1023 < v → exec (.pwmd v) s = .refused .dutyOutOfRange)

/-- The pseudo-operation `BRIGHT` gives the computed duty to the PWM output (the spec's own expansion, 30_encoding
R101, decisions D6, D17). -/
def Obligations.BrightSetsComputedDuty : Prop :=
  ∀ s : State, s.halt = false → ∃ r : BitVec 10,
    (r.toNat : Int) = dutyOfSum (s.nextSamples 100).sum ∧
    bright s = .next { s.afterCduty with
      pwmDuty := r, trace := s.afterCduty.trace ++ [.pwmDuty r], result := none }

/-- The PWM output is high for the fraction `PWMDUTY / 1023` of each period: 0 is always low, 1023 always high, and a
larger duty is a larger fraction (42 R180, the spec's own decision D16). -/
def Obligations.PwmFractionLinear : Prop :=
  ∀ s t : State, (s.pwmDuty = 0 → s.pwmHighFraction = 0) ∧ (s.pwmDuty = 1023 → s.pwmHighFraction = 1) ∧
    s.pwmHighFraction * 1023 = (s.pwmDuty.toNat : Rat) ∧
    (s.pwmDuty.toNat ≤ t.pwmDuty.toNat → s.pwmHighFraction ≤ t.pwmHighFraction)

/-! ## Faults, refusals and the halted state -/

/-- Faults are precise and come before any effect: an operation that ends with `HALT = 1` changed `HALT`, `CAUSE` and
the trace, handed back nothing, and changed nothing else (60 R224, R225: the spec's own decisions D10, D12). -/
def Obligations.FaultsPrecise : Prop :=
  ∀ (i : Instr) (s t : State), exec i s = .next t → t.halt = true → t = s.afterFault 1 ∨ t = s.afterFault 2

/-- R221 whole: `InvalidPatternError` is raised by `ENCR` for a list that is not 8 elements each 0 or 1, and by
`FRAME` when one of its stages holds such a list; no other operation can raise it. -/
def Obligations.InvalidPatternRaisers : Prop :=
  (∀ (s : State) (x : Bool) (l : List Nat), s.halt = false → l.length ≠ 8 ∨ (∃ e ∈ l, e ≠ 0 ∧ e ≠ 1) →
    exec (.encr x l) s = .next (s.afterFault 1)) ∧
  (∀ (s : State) (a0 a1 a2 : Assignment), s.halt = false →
    (∀ d, a0.symbol = .digit d ∨ a1.symbol = .digit d ∨ a2.symbol = .digit d → d ≤ 9) →
    (∃ l : List Nat, (a0.symbol = .raw l ∨ a1.symbol = .raw l ∨ a2.symbol = .raw l) ∧
      (l.length ≠ 8 ∨ ∃ e ∈ l, e ≠ 0 ∧ e ≠ 1)) →
    exec (.frame a0 a1 a2) s = .next (s.afterFault 1)) ∧
  ∀ (i : Instr) (s t : State), exec i s = .next t → t.halt = true → t.cause = 1 →
    ∃ l : List Nat, (l.length ≠ 8 ∨ ∃ e ∈ l, e ≠ 0 ∧ e ≠ 1) ∧
      ((∃ x, i = .encr x l) ∨ ∃ a0 a1 a2 : Assignment, i = .frame a0 a1 a2 ∧
        (a0.symbol = .raw l ∨ a1.symbol = .raw l ∨ a2.symbol = .raw l))

/-- R222 whole: `InvalidHourTensError` is raised by `DISP` when its hour-tens operand, and by `TIME` when the tens
digit of its hour, is outside 0 and 1; no other operation can raise it. -/
def Obligations.InvalidHourTensRaisers : Prop :=
  (∀ (s : State) (ht hu mt mu : Nat), s.halt = false → 2 ≤ ht →
    exec (.disp ht hu mt mu) s = .next (s.afterFault 2)) ∧
  (∀ (s : State) (h m : Nat), s.halt = false → 2 ≤ h / 10 → exec (.time h m) s = .next (s.afterFault 2)) ∧
  ∀ (i : Instr) (s t : State), exec i s = .next t → t.halt = true → t.cause = 2 →
    (∃ ht hu mt mu, i = .disp ht hu mt mu ∧ 2 ≤ ht) ∨ ∃ h m, i = .time h m ∧ 2 ≤ h / 10

/-- The refusals are those of 60 R229 and no others, and an operation stops with a fault only in the halted state
(the spec's own decisions D4, D12, D16, D18). -/
def Obligations.StopsAreTheListedOnes : Prop :=
  (∀ (i : Instr) (s : State) (r : Refusal), exec i s = .refused r → s.halt = false ∧
    ((r = .digitOutOfRange ∧ ((∃ x d, i = .encd x d ∧ 9 < d) ∨
        (∃ a0 a1 a2 : Assignment, i = .frame a0 a1 a2 ∧
          ∃ d, 9 < d ∧ (a0.symbol = .digit d ∨ a1.symbol = .digit d ∨ a2.symbol = .digit d)) ∨
        ∃ ht hu mt mu, i = .disp ht hu mt mu ∧ (9 < hu ∨ 9 < mt ∨ 9 < mu))) ∨
      (r = .timeOutOfRange ∧ ∃ h m, i = .time h m ∧ (h < 1 ∨ 12 < h ∨ 59 < m)) ∨
      (r = .dutyOutOfRange ∧ ∃ v, i = .pwmd v ∧ 1023 < v))) ∧
  ∀ (i : Instr) (s : State) (f : Fault), exec i s = .fault f → s.halt = true

/-- While `HALT = 1` no operation and no step has a next state, for ever (60 R226, the spec's own decision D12; the
name of the stop is the model's, log 8). -/
def Obligations.HaltedStateIsFinal : Prop :=
  ∀ s : State, s.halt = true → (∀ i, exec i s = .fault .halted) ∧ step s = .fault .halted ∧
    ∀ n, Sys2Proof.core.run (n + 1) s = .fault .halted

/-! ## Rules of the whole machine -/

/-- Who writes what: only `SHOUT`, `FRAME`, `DISP` and `TIME` change the pins and the chain, only `PWMD` the duty
register, only `PWMF` the frequency register; no operation that completes without a fault changes the status
(10_state sections 2 to 5). Two clauses speak of the model's own fields, not the spec's: only `CDUTY` takes samples from
the sensor's list and counter (log 4, DESIGN CHOICE), and no operation touches the queue of pending commands (log 1,
DESIGN CHOICE). -/
def Obligations.StateOwnership : Prop :=
  ∀ (i : Instr) (s t : State), exec i s = .next t →
    ((¬ (∃ ps, i = .shout ps) ∧ ¬ (∃ a0 a1 a2, i = .frame a0 a1 a2) ∧ ¬ (∃ ht hu mt mu, i = .disp ht hu mt mu) ∧
        ¬ (∃ h m, i = .time h m)) →
      t.data = s.data ∧ t.shcp = s.shcp ∧ t.stcp = s.stcp ∧ t.sr = s.sr ∧ t.out = s.out) ∧
    (¬ (∃ v, i = .pwmd v) → t.pwmDuty = s.pwmDuty) ∧ (¬ (∃ hz, i = .pwmf hz) → t.pwmFreq = s.pwmFreq) ∧
    (i ≠ .cduty → t.sensor = s.sensor ∧ t.sensorReads = s.sensorReads) ∧
    (t.halt = false → t.cause = s.cause) ∧ t.commands = s.commands

/-- The result port after an operation that completes without a fault: a pattern from the encoder operations, a duty
from `CDUTY`, nothing from the others; after a fault nothing (30_encoding R95, the spec's own decision D5; that the
port is a field of the state is the model's choice, log 5). -/
def Obligations.ResultPortByOperation : Prop :=
  ∀ (i : Instr) (s t : State), exec i s = .next t →
    (t.halt = true → t.result = none) ∧
    (t.halt = false → (match i with
      | .encd _ _ | .encb _ | .encr _ _ => ∃ w, t.result = some (.pattern w)
      | .cduty => ∃ r, t.result = some (.duty r)
      | .shout _ | .frame _ _ _ | .disp _ _ _ _ | .time _ _ | .pwmf _ | .pwmd _ => t.result = none))

/-- No operation reads the data pin, the chain, the outputs, the PWM registers, the cause or the trace (10_state R22,
R24, R28, R29, R33): where one state gives a next state, a state that differs only in those gives a next state too, with
the same result, the same `HALT`, after a fault the same `CAUSE`, the same clock levels and the same entries added to
the trace. The clause that no operation reads the result port rests on the model's own field for it (log 5, DESIGN
CHOICE). -/
def Obligations.HiddenStateNeverRead : Prop :=
  ∀ (i : Instr) (s t : State) (data : Bool) (sr out : Chain) (duty : BitVec 10) (freq : Nat) (cause : BitVec 2)
    (trace : List TraceEntry) (result : Option OpResult), exec i s = .next t →
    ∃ u, exec i { s with
        data := data, sr := sr, out := out, pwmDuty := duty, pwmFreq := freq, cause := cause, trace := trace,
        result := result } = .next u ∧
      u.result = t.result ∧ u.halt = t.halt ∧ (t.halt = true → u.cause = t.cause) ∧ u.shcp = t.shcp ∧
      u.stcp = t.stcp ∧ ∃ added, t.trace = s.trace ++ added ∧ u.trace = trace ++ added

/-- The trace explains the state: what a step changes in the pins, the chain, the PWM registers, the status and the
trace is exactly what the micro-steps it appends to the trace do, in order (10_state R22 to R33). -/
def Obligations.TraceExplainsEveryStep : Prop :=
  ∀ s t : State, step s = .next t → ∃ entries, t.sameCore (s.replay entries)

/-- Every step keeps the invariant: clocks low, a legal status, a fault entry in the trace exactly when halted and
then last, samples in range, a duty result in `1..1022` (10_state R23, R30, R31, R33; 42 R171; 30_encoding R95). -/
def Obligations.StepKeepsInvariant : Prop :=
  ∀ s t : State, s.Inv → step s = .next t → t.Inv

/-- The invariant holds after reset, whatever the four unspecified registers hold. -/
def Obligations.ResetHasInvariant : Prop :=
  (∀ (sr out : Chain) (duty : BitVec 10) (freq : Nat), (State.resetWith sr out duty freq).Inv) ∧ State.reset.Inv

/-- What reset leaves (10_state R36, the spec's own decision D9): the pins low, no halt, no cause, an empty trace, and
any value of the four unspecified registers; the other fields are the model's own, empty (log 1, log 4, log 5). -/
def Obligations.ResetLeavesFreeInputs : Prop :=
  ∀ (sr out : Chain) (duty : BitVec 10) (freq : Nat),
    State.resetWith sr out duty freq = ⟨false, false, false, sr, out, duty, freq, false, 0, [], none, [], [], 0⟩ ∧
    ∃ sr out duty freq, State.reset = State.resetWith sr out duty freq

/-! ## The step and the encoding -/

/-- A step runs the decoded operation: where the pending command words begin with an operation, the step is that
operation on the state that has taken its words off (30_encoding R85; the stream's place in the state is the
model's, log 1). -/
def Obligations.StepRunsDecodedOperation : Prop :=
  ∀ (s : State) (i : Instr) (rest : List CommandWord), s.halt = false → decode s.commands = .ok (i, rest) →
    step s = exec i { s with commands := rest }

/-- A step with no pending command changes nothing (60 R237; the model's choice, log 9); words that spell no
operation are refused `InvalidCommandWord` (30_encoding R98, the spec's own decisions D4, D5). That the end of the
pending words counts as the end of the stream, so that the beginning of an operation is refused as truncated, is the
model's choice (log 23). -/
def Obligations.StepWaitsOrRefuses : Prop :=
  ∀ s : State, s.halt = false →
    (s.commands = [] → step s = .next s) ∧
    ∀ why, s.commands ≠ [] → decode s.commands = .error why → step s = .refused (.invalidCommandWord why)

/-- Decoding the words of a well-formed operation, with anything after them, gives the operation and leaves what is
after them (30_encoding Part B, the spec's own decision D5). -/
def Obligations.DecodeAfterEncode : Prop :=
  ∀ (i : Instr) (rest : List CommandWord), i.wf = true → decode (encode i ++ rest) = .ok (i, rest)

/-- Each word has one meaning: what the decoder reads is well-formed, and its words are exactly those read
(30_encoding Part B, the spec's own decision D5). -/
def Obligations.EncodeAfterDecode : Prop :=
  ∀ (ws rest : List CommandWord) (i : Instr), decode ws = .ok (i, rest) → i.wf = true ∧ encode i ++ rest = ws

/-- A raw list that does not fit its word saturates, and the list the word carries is valid exactly when the
original is (30_encoding R87, the spec's own decision D5). -/
def Obligations.RawListWordKeepsValidity : Prop :=
  ∀ (x : Bool) (l : List Nat), ∃ l' : List Nat,
    decode (encode (.encr x l)) = .ok (.encr x l', []) ∧ rawValid l' = rawValid l ∧
    (rawValid l = true → l' = l)

/-- A decoded operation's header word fits its row of the operation map, `(w AND mask) = match` (30_encoding R96, the
spec's own decisions D1, D5). -/
def Obligations.HeaderWordFitsItsRow : Prop :=
  ∀ (w : CommandWord) (ws rest : List CommandWord) (i : Instr), decode (w :: ws) = .ok (i, rest) →
    w &&& (headerRow i).2 = (headerRow i).1

/-- Words written out from the spec's encodings decode to the operations they stand for (95_test_vectors parts 2.1 to
2.6; the spec's own decision D5). -/
def Obligations.KnownWordsDecode : Prop :=
  decode [0b00010010000011100000000000000000] = .ok (.encd true 7, []) ∧
  decode [0b00010110000000000000000000000000] = .ok (.encb true, []) ∧
  decode [0b00011011000000000100010100010100] = .ok (.encr true [0, 1, 1, 0, 1, 1, 0, 1], []) ∧
  decode [0x20400000, 0xFF0C7F0F] = .ok (.shout [0xFF, 0x0C, 0x7F, 0x0F], []) ∧
  decode [0x30000000, 0x00020000, 0x06000000, 0x0B005555] =
    .ok (.frame ⟨false, .digit 1⟩ ⟨true, .blank⟩ ⟨true, .raw [1, 1, 1, 1, 1, 1, 1, 1]⟩, []) ∧
  decode [0x40001259] = .ok (.disp 1 2 5 9, []) ∧ decode [0x50000C3B] = .ok (.time 12 59, []) ∧
  decode [0x60000000] = .ok (.cduty, []) ∧ decode [0x700003E8] = .ok (.pwmf 1000, []) ∧
  decode [0x8000027E] = .ok (.pwmd 638, [])
end

