-- ==== Sys2Proof/Laws/Brightness.lean ====
section
/-! SUPPORT. The duty as a number and as the 10 bits of the result port (42 R173, R175; 30_encoding R95). -/

namespace Sys2Proof.Machine

/-- A duty is in `1..1022` (42 R175). -/
theorem dutyOfSum_bounds (sum : Nat) : 1 ≤ dutyOfSum sum ∧ dutyOfSum sum ≤ 1022 := by
  unfold dutyOfSum dutyMin dutyMax
  split <;> omega

/-- A duty fits the result port. -/
theorem ofInt_dutyOfSum (sum : Nat) : ((BitVec.ofInt 10 (dutyOfSum sum)).toNat : Int) = dutyOfSum sum := by
  have := dutyOfSum_bounds sum
  rw [BitVec.toNat_ofInt]
  omega

end Sys2Proof.Machine
end

