-- ==== Sys2Proof/Laws/Decode.lean ====
section
/-! SUPPORT. The decoder's and the encoder's operations: what a packed list, a symbol word,
  a pattern word and a header
word give, in both directions (30_encoding R85 to R99). -/

namespace Sys2Proof

/-! ## Raw lists (30_encoding R86, R87) -/

/-- A packed list has two bits for each element. -/
theorem packElements_lt (l : List Nat) : packElements l < 4 ^ l.length := by
  induction l with
  | nil => simp [packElements]
  | cons a l ih => simp only [packElements, List.length_cons, Nat.pow_succ]; omega

/-- Element `i` of a list is the `i`-th pair of bits of its packed form, saturated at 3. -/
theorem packElements_elem (l : List Nat) (i : Nat) :
    packElements l / 4 ^ i % 4 = (l[i]?.map fun e => min e 3).getD 0 := by
  induction l generalizing i with
  | nil => simp [packElements]
  | cons a l ih =>
    cases i with
    | zero => simp [packElements]
    | succ i =>
      rw [Nat.pow_succ, Nat.mul_comm, ← Nat.div_div_eq_div_mul]
      have : packElements (a :: l) / 4 = packElements l := by simp only [packElements]; omega
      rw [this, ih]; simp

/-- The first eight elements fit `E`, bits 15..0. -/
theorem packElements_take_lt (l : List Nat) : packElements (l.take 8) < 65536 := by
  have h := packElements_lt (l.take 8)
  have : 4 ^ (l.take 8).length ≤ 4 ^ 8 := Nat.pow_le_pow_right (by omega) (by simp)
  omega

/-- An unpacked list has the length asked for. -/
theorem unpackElements_length (n e : Nat) : (unpackElements n e).length = n := by
  induction n generalizing e with
  | zero => rfl
  | succ n ih => simp [unpackElements, ih]

/-- Element `i` of an unpacked list. -/
theorem unpackElements_getElem (n e i : Nat) (h : i < n) : (unpackElements n e)[i]? = some (e / 4 ^ i % 4) := by
  induction n generalizing e i with
  | zero => omega
  | succ n ih =>
    cases i with
    | zero => simp [unpackElements]
    | succ i =>
      simp only [unpackElements, List.getElem?_cons_succ]
      rw [ih _ _ (by omega), Nat.div_div_eq_div_mul, Nat.pow_succ, Nat.mul_comm]

/-- An unpacked element is at most 3. -/
theorem unpackElements_le (n e : Nat) : ∀ a ∈ unpackElements n e, a ≤ 3 := by
  induction n generalizing e with
  | zero => simp [unpackElements]
  | succ n ih =>
    simp only [unpackElements, List.mem_cons, forall_eq_or_imp]
    exact ⟨by omega, ih _⟩

/-- Unpacking what was packed. -/
theorem unpackElements_packElements (l : List Nat) (h : ∀ a ∈ l, a ≤ 3) :
    unpackElements l.length (packElements l) = l := by
  induction l with
  | nil => rfl
  | cons a l ih =>
    have ha : a ≤ 3 := h a (by simp)
    have hl : ∀ b ∈ l, b ≤ 3 := fun b hb => h b (by simp [hb])
    have h1 : packElements (a :: l) % 4 = a := by simp only [packElements]; omega
    have h2 : packElements (a :: l) / 4 = packElements l := by simp only [packElements]; omega
    simp only [List.length_cons, unpackElements, h1, h2, ih hl]

/-- Packing what was unpacked. -/
theorem packElements_unpackElements (n e : Nat) (h : e < 4 ^ n) : packElements (unpackElements n e) = e := by
  induction n generalizing e with
  | zero => simp [packElements, unpackElements]; omega
  | succ n ih =>
    have : packElements (unpackElements n (e / 4)) = e / 4 := ih _ (by rw [Nat.pow_succ] at h; omega)
    simp only [unpackElements, packElements, this]; omega

/-- Zeros pack to zero. -/
theorem packElements_zeros (l : List Nat) (h : ∀ a ∈ l, a = 0) : packElements l = 0 := by
  induction l with
  | nil => rfl
  | cons a l ih =>
    have ha : a = 0 := h a (by simp)
    simp only [packElements, ha, ih (fun b hb => h b (by simp [hb]))]; rfl

/-- The packed form of a list in two parts. -/
theorem packElements_append (a b : List Nat) : packElements (a ++ b) = packElements a +
    4 ^ a.length * packElements b := by
  induction a with
  | nil => simp [packElements]
  | cons x a ih => simp only [List.cons_append, packElements, ih, List.length_cons, Nat.pow_succ]; ring

/-- Zeros from the ninth element on are not carried. -/
theorem packElements_take (l : List Nat) (h : ∀ a ∈ l.drop 8, a = 0) : packElements (l.take 8) = packElements l := by
  conv_rhs => rw [← List.take_append_drop 8 l, packElements_append, packElements_zeros _ h]
  simp

/-- An element above 3 is carried as 3. -/
theorem packElements_saturate (l : List Nat) : packElements (l.map fun e => min e 3) = packElements l := by
  induction l with
  | nil => rfl
  | cons a l ih => simp only [List.map_cons, packElements, ih]; omega

/-- What a command word carries exactly, as a proposition. -/
theorem rawListWf_iff (l : List Nat) : rawListWf l = true ↔ l.length ≤ 15 ∧ (∀ a ∈ l, a ≤ 3) ∧
    ∀ a ∈ l.drop 8, a = 0 := by
  simp only [rawListWf, Bool.and_eq_true, decide_eq_true_eq, List.all_eq_true, and_assoc]
  constructor
  · rintro ⟨a, b, c⟩
    refine ⟨a, fun x hx => ?_, c⟩
    rw [← List.take_append_drop 8 l, List.mem_append] at hx
    rcases hx with hx | hx
    · exact b x hx
    · have := c x hx; omega
  · rintro ⟨a, b, c⟩
    exact ⟨a, fun x hx => b x (List.mem_of_mem_take hx), c⟩

/-! ## Operations that have words (30_encoding R86 to R94, R97) -/

/-- A symbol a word carries exactly is one it carries. -/
theorem Symbol.encodable_of_wf {s : Symbol} (h : s.wf = true) : s.encodable = true := by
  cases s <;> first | exact h | rfl

/-- The well-formed operations have words. -/
theorem Instr.encodable_of_wf {i : Instr} (h : i.wf = true) : i.encodable = true := by
  cases i with
  | frame a0 a1 a2 =>
    simp only [Instr.wf, Bool.and_eq_true] at h
    simp only [Instr.encodable, Bool.and_eq_true]
    exact ⟨⟨Symbol.encodable_of_wf h.1.1, Symbol.encodable_of_wf h.1.2⟩, Symbol.encodable_of_wf h.2⟩
  | encr _ _ => rfl
  | encd _ _ => exact h
  | encb _ => exact h
  | shout _ => exact h
  | disp _ _ _ _ => exact h
  | time _ _ => exact h
  | cduty => exact h
  | pwmf _ => exact h
  | pwmd _ => exact h

/-- An operation that has words has the encoder's. -/
theorem commandWords_eq_some {i : Instr} {ws : List CommandWord} :
    commandWords i = some ws ↔ i.encodable = true ∧ encode i = ws := by
  simp [commandWords]

/-- The words of a well-formed operation. -/
theorem commandWords_of_wf {i : Instr} (h : i.wf = true) : commandWords i = some (encode i) :=
  commandWords_eq_some.2 ⟨Instr.encodable_of_wf h, rfl⟩

/-! ## Symbol words (30_encoding R86, R97) -/

/-- Decoding the fields of a well-formed symbol below any opcode gives the symbol back. -/
theorem decodeSymbol_encode (op : Nat) (hop : op < 16) (x : Bool) (s : Symbol) (h : s.wf = true) :
    decodeSymbol (BitVec.ofNat 32 (op * 2 ^ 28 + encodeSymbolBits x s)) = .ok ⟨x, s⟩ ∧
    opcode (BitVec.ofNat 32 (op * 2 ^ 28 + encodeSymbolBits x s)) = op := by
  have hx : x.toNat ≤ 1 := by cases x <;> decide
  cases s with
  | digit d =>
    simp only [Symbol.wf, decide_eq_true_eq] at h
    have e1 : (BitVec.ofNat 32 (op * 2 ^ 28 + encodeSymbolBits x (.digit d))).toNat = op * 2 ^ 28 +
        (x.toNat * 2 ^ 25 + d * 2 ^ 17) := by
      simp only [encodeSymbolBits, BitVec.toNat_ofNat]; omega
    generalize (BitVec.ofNat 32 (op * 2 ^ 28 + encodeSymbolBits x (.digit d))) = w at e1 ⊢
    have f0 : field w 16 16 = 0 := by simp only [field, e1]; omega
    have f1 : field w 27 26 = 0 := by simp only [field, e1]; omega
    have f2 : field w 24 21 = 0 := by simp only [field, e1]; omega
    have f3 : field w 15 0 = 0 := by simp only [field, e1]; omega
    have f4 : field w 20 17 = d := by simp only [field, e1]; omega
    have f5 : field w 25 25 = x.toNat := by simp only [field, e1]; omega
    constructor
    · simp [decodeSymbol, f0, f1, f2, f3, f4, f5]
    · simp only [opcode, field, e1]; omega
  | blank =>
    have e1 : (BitVec.ofNat 32 (op * 2 ^ 28 + encodeSymbolBits x .blank)).toNat = op * 2 ^ 28 + (1 * 2 ^ 26 +
        x.toNat * 2 ^ 25) := by
      simp only [encodeSymbolBits, BitVec.toNat_ofNat]; omega
    generalize (BitVec.ofNat 32 (op * 2 ^ 28 + encodeSymbolBits x .blank)) = w at e1 ⊢
    have f0 : field w 16 16 = 0 := by simp only [field, e1]; omega
    have f1 : field w 27 26 = 1 := by simp only [field, e1]; omega
    have f2 : field w 24 21 = 0 := by simp only [field, e1]; omega
    have f3 : field w 15 0 = 0 := by simp only [field, e1]; omega
    have f4 : field w 20 17 = 0 := by simp only [field, e1]; omega
    have f5 : field w 25 25 = x.toNat := by simp only [field, e1]; omega
    constructor
    · simp [decodeSymbol, f0, f1, f2, f3, f4, f5]
    · simp only [opcode, field, e1]; omega
  | raw l =>
    obtain ⟨h1, h2, h3⟩ := (rawListWf_iff l).1 h
    have hp := packElements_take_lt l
    have hm : min l.length 15 = l.length := by omega
    have e1 : (BitVec.ofNat 32 (op * 2 ^ 28 + encodeSymbolBits x (.raw l))).toNat = op * 2 ^ 28 +
        (2 * 2 ^ 26 + x.toNat * 2 ^ 25 + l.length * 2 ^ 21 + packElements (l.take 8)) := by
      simp only [encodeSymbolBits, BitVec.toNat_ofNat, hm]; omega
    rw [packElements_take l h3] at e1 hp
    generalize (BitVec.ofNat 32 (op * 2 ^ 28 + encodeSymbolBits x (.raw l))) = w at e1 ⊢
    have f0 : field w 16 16 = 0 := by simp only [field, e1]; omega
    have f1 : field w 27 26 = 2 := by simp only [field, e1]; omega
    have f2 : field w 24 21 = l.length := by simp only [field, e1]; omega
    have f3 : field w 15 0 = packElements l := by simp only [field, e1]; omega
    have f4 : field w 20 17 = 0 := by simp only [field, e1]; omega
    have f5 : field w 25 25 = x.toNat := by simp only [field, e1]; omega
    have f6 : packElements l / 4 ^ l.length = 0 := Nat.div_eq_of_lt (packElements_lt l)
    constructor
    · simp [decodeSymbol, f0, f1, f2, f3, f4, f5, f6, unpackElements_packElements l h2, -Nat.div_eq_zero_iff]
    · simp only [opcode, field, e1]; omega

/-- What a decoded symbol word can be: a well-formed symbol, whose bits are the word's, and the fields its kind
requires to be zero. -/
theorem decodeSymbol_ok (w : CommandWord) (a : Assignment) (h : decodeSymbol w = .ok a) :
    a.symbol.wf = true ∧ w = BitVec.ofNat 32 (opcode w * 2 ^ 28 + encodeSymbolBits a.extra a.symbol) ∧
    field w 16 16 = 0 ∧
    ((∃ d, a.symbol = .digit d ∧ field w 27 26 = 0 ∧ field w 24 21 = 0 ∧ field w 15 0 = 0) ∨
     (a.symbol = .blank ∧ field w 27 26 = 1 ∧ field w 24 21 = 0 ∧ field w 20 17 = 0 ∧ field w 15 0 = 0) ∨
     (∃ l, a.symbol = .raw l ∧ field w 27 26 = 2 ∧ field w 20 17 = 0)) := by
  have hw := w.isLt
  have hx : (decide (field w 25 25 = 1)).toNat = field w 25 25 := by
    have : field w 25 25 = 0 ∨ field w 25 25 = 1 := by simp only [field]; omega
    rcases this with h | h <;> rw [h] <;> rfl
  have key : w.toNat = opcode w * 2 ^ 28 + field w 27 26 * 2 ^ 26 + field w 25 25 * 2 ^ 25 +
      field w 24 21 * 2 ^ 21 + field w 20 17 * 2 ^ 17 + field w 16 16 * 2 ^ 16 + field w 15 0 := by
    simp only [opcode, field]; omega
  have b1 : field w 24 21 < 16 := by simp only [field]; omega
  have b2 : field w 20 17 < 16 := by simp only [field]; omega
  have b3 : field w 15 0 < 65536 := by simp only [field]; omega
  have b4 : opcode w < 16 := by simp only [opcode, field]; omega
  have b5 : field w 25 25 < 2 := by simp only [field]; omega
  revert h hx key b1 b2 b3 b4 b5
  unfold decodeSymbol
  generalize field w 27 26 = k
  generalize field w 25 25 = x
  generalize field w 24 21 = n
  generalize field w 20 17 = d
  generalize field w 16 16 = z
  generalize field w 15 0 = e
  generalize opcode w = op
  intro h hx key b1 b2 b3 b4 b5
  simp only at h
  split_ifs at h with c1 c2 c3 c4 c5 c6 c7 c8
  · obtain ⟨rfl, rfl⟩ := c3
    cases h
    refine ⟨by simpa [Symbol.wf] using b2, ?_, by omega, .inl ⟨d, rfl, by omega, rfl, rfl⟩⟩
    apply BitVec.eq_of_toNat_eq
    simp only [encodeSymbolBits, BitVec.toNat_ofNat, hx]; omega
  · obtain ⟨rfl, rfl, rfl⟩ := c5
    cases h
    refine ⟨rfl, ?_, by omega, .inr (.inl ⟨rfl, by omega, rfl, rfl, rfl⟩)⟩
    apply BitVec.eq_of_toNat_eq
    simp only [encodeSymbolBits, BitVec.toNat_ofNat, hx]; omega
  · cases h
    have c9 : e / 4 ^ n = 0 := by omega
    have hlt : e < 4 ^ n := (Nat.div_eq_zero_iff_lt (by positivity)).1 c9
    have hz : ∀ a ∈ (unpackElements n e).drop 8, a = 0 := by
      intro a ha
      obtain ⟨i, hi, rfl⟩ := List.getElem_of_mem ha
      rw [List.length_drop, unpackElements_length] at hi
      rw [List.getElem_drop]
      have := unpackElements_getElem n e (8 + i) (by omega)
      rw [List.getElem?_eq_getElem (by rw [unpackElements_length]; omega), Option.some_inj] at this
      rw [this, Nat.div_eq_of_lt, Nat.zero_mod]
      calc e < 4 ^ 8 := b3
        _ ≤ 4 ^ (8 + i) := Nat.pow_le_pow_right (by omega) (by omega)
    refine ⟨(rawListWf_iff _).2 ⟨by rw [unpackElements_length]; omega, unpackElements_le _ _, hz⟩, ?_,
      by omega, .inr (.inr ⟨_, rfl, by omega, by omega⟩)⟩
    apply BitVec.eq_of_toNat_eq
    simp only [encodeSymbolBits, BitVec.toNat_ofNat, hx, packElements_take _ hz,
      packElements_unpackElements n e hlt, unpackElements_length]; omega

/-- A decoded `SYM` word is the word of the assignment it gives. -/
theorem decodeSymbolWord_ok (w : CommandWord) (a : Assignment) (h : decodeSymbolWord w = .ok a) :
    a.symbol.wf = true ∧ symWord a = w := by
  unfold decodeSymbolWord at h
  split_ifs at h with h0
  obtain ⟨h1, h2, _⟩ := decodeSymbol_ok w a h
  rw [h0, Nat.zero_mul, Nat.zero_add] at h2
  exact ⟨h1, h2.symm⟩

/-- The words of an encoder operation. -/
theorem encode_encoderInstr (a : Assignment) : encode (encoderInstr a) = [encWord a.extra a.symbol] := by
  rcases a with ⟨x, _ | _ | _⟩ <;> rfl

/-- An encoder operation is well-formed when its symbol is. -/
theorem wf_encoderInstr (a : Assignment) : (encoderInstr a).wf = a.symbol.wf := by
  rcases a with ⟨x, _ | _ | _⟩ <;> rfl

/-! ## Pattern words (30_encoding R88) -/

/-- The four bytes of a packed word. -/
theorem unpackPatterns_packWord (a b c d : Pattern) : unpackPatterns (packWord a b c d) = [a, b, c, d] := by
  have := a.isLt; have := b.isLt; have := c.isLt; have := d.isLt
  have e : (packWord a b c d).toNat = a.toNat * 2 ^ 24 + b.toNat * 2 ^ 16 + c.toNat * 2 ^ 8 + d.toNat := by
    simp only [packWord, BitVec.toNat_ofNat]; omega
  simp only [unpackPatterns, field, e]
  congr 1
  · apply BitVec.eq_of_toNat_eq; simp only [BitVec.toNat_ofNat]; omega
  congr 1
  · apply BitVec.eq_of_toNat_eq; simp only [BitVec.toNat_ofNat]; omega
  congr 1
  · apply BitVec.eq_of_toNat_eq; simp only [BitVec.toNat_ofNat]; omega
  congr 1
  · apply BitVec.eq_of_toNat_eq; simp only [BitVec.toNat_ofNat]; omega

/-- Packing the four bytes of a word gives the word. -/
theorem packWord_unpack (w : CommandWord) : packWord (BitVec.ofNat 8 (field w 31 24)) (BitVec.ofNat 8
    (field w 23 16)) (BitVec.ofNat 8 (field w 15 8)) (BitVec.ofNat 8 (field w 7 0)) = w := by
  have := w.isLt
  apply BitVec.eq_of_toNat_eq
  simp only [packWord, field, BitVec.toNat_ofNat]; omega

/-- The operand words of `SHOUT`: four patterns each, then zero bytes. -/
theorem packPatterns_spec (ps : List Pattern) : (packPatterns ps).length = (ps.length + 3) / 4 ∧
    ∃ z, (packPatterns ps).flatMap unpackPatterns = ps ++ z ∧ z.all (fun p => p == 0) = true := by
  match ps with
  | [] => exact ⟨rfl, [], rfl, rfl⟩
  | [a] => exact ⟨by simp [packPatterns], [0,0,0], by simp [packPatterns, unpackPatterns_packWord], rfl⟩
  | [a,b] => exact ⟨by simp [packPatterns], [0,0], by simp [packPatterns, unpackPatterns_packWord], rfl⟩
  | [a,b,c] => exact ⟨by simp [packPatterns], [0], by simp [packPatterns, unpackPatterns_packWord], rfl⟩
  | a :: b :: c :: d :: rest =>
    obtain ⟨h1, z, h2, h3⟩ := packPatterns_spec rest
    refine ⟨by simp only [packPatterns, List.length_cons, h1]; omega, z, ?_, h3⟩
    simp [packPatterns, unpackPatterns_packWord, h2]

/-- Decoding packed patterns gives them back. -/
theorem decodePatterns_packPatterns (ps : List Pattern) : decodePatterns ps.length (packPatterns ps) = .ok ps := by
  obtain ⟨_, z, h2, h3⟩ := packPatterns_spec ps
  simp [decodePatterns, h2]
  simpa using h3

/-- Packing the patterns of operand words with zero unused bytes gives the words. -/
theorem packPatterns_unpackPatterns (ws : List CommandWord) (n : Nat) (hl : ws.length = (n + 3) / 4)
   (hz : ((ws.flatMap unpackPatterns).drop n).all (fun p => p == 0) = true) :
     packPatterns ((ws.flatMap unpackPatterns).take n) = ws := by
  induction ws generalizing n with
  | nil => simp [packPatterns]
  | cons w ws ih =>
    have hw := packWord_unpack w
    simp only [List.flatMap_cons, unpackPatterns, List.cons_append, List.nil_append] at hz ⊢
    simp only [List.length_cons] at hl
    match n with
    | 0 => omega
    | 1 =>
      have : ws = [] := List.eq_nil_of_length_eq_zero (by omega)
      subst this
      simp [packPatterns] at hz ⊢
      obtain ⟨h1, h2, h3⟩ := hz
      rw [h1, h2, h3] at hw; exact hw
    | 2 =>
      have : ws = [] := List.eq_nil_of_length_eq_zero (by omega)
      subst this
      simp [packPatterns] at hz ⊢
      obtain ⟨h2, h3⟩ := hz
      rw [h2, h3] at hw; exact hw
    | 3 =>
      have : ws = [] := List.eq_nil_of_length_eq_zero (by omega)
      subst this
      simp [packPatterns] at hz ⊢
      rw [hz] at hw; exact hw
    | n + 4 =>
      simp only [List.drop_succ_cons, List.take_succ_cons, packPatterns, hw] at hz ⊢
      rw [ih n (by omega) hz]

/-! ## Header words (30_encoding R85, R96, R99) -/

/-- A header word and exactly its operand words decode to their operation, whatever comes after. -/
theorem decode_cons (h : CommandWord) (ops rest : List CommandWord) (i : Instr) (hl : ops.length = operandCount h)
   (hd : decodeOperation h ops = .ok i) : decode (h :: ops ++ rest) = .ok (i, rest) := by
  simp only [decode, List.cons_append]
  rw [if_neg (by simp [hl]), ← hl]
  simp [hd, Except.map]

/-- A header word without operand words. -/
theorem decode_one (h : CommandWord) (rest : List CommandWord) (i : Instr) (h2 : opcode h ≠ 2) (h3 : opcode h ≠ 3)
   (hd : decodeOperation h [] = .ok i) : decode ([h] ++ rest) = .ok (i, rest) :=
  decode_cons h [] rest i (by simp [operandCount, h2, h3]) hd

/-- What a decoded stream is: a header word, its operand words, and the rest. -/
theorem decode_ok (h : CommandWord) (ws rest : List CommandWord) (i : Instr) (hd : decode (h :: ws) = .ok (i, rest)) :
   ∃ ops, ws = ops ++ rest ∧ ops.length = operandCount h ∧ decodeOperation h ops = .ok i := by
  simp only [decode] at hd
  split_ifs at hd with hc
  refine ⟨ws.take (operandCount h), ?_, by simp; omega, ?_⟩
  · cases hx : decodeOperation h (ws.take (operandCount h)) with
    | error e => rw [hx] at hd; cases hd
    | ok j => rw [hx] at hd; cases hd; simp
  · cases hx : decodeOperation h (ws.take (operandCount h)) with
    | error e => rw [hx] at hd; cases hd
    | ok j => rw [hx] at hd; cases hd; rfl

/-- A mapped result is the image of a result. -/
theorem except_map_ok {α β : Type} {x : Except BadCommand α} {f : α → β} {b : β} (h : x.map f = .ok b) :
    ∃ a, x = .ok a ∧ f a = b := by
  cases x with
  | error e => cases h
  | ok a => cases h; exact ⟨a, rfl, rfl⟩

/-- The fields of a `SHOUT` header word. -/
theorem shout_fields (n : Nat) (h : n ≤ 255) (w : CommandWord) (e1 : w.toNat = 2 * 2 ^ 28 + n * 2 ^ 20) :
    opcode w = 2 ∧ field w 27 20 = n ∧ field w 19 0 = 0 := by
  refine ⟨?_, ?_, ?_⟩ <;> simp only [opcode, field, e1] <;> omega

/-- The number of a `SHOUT` header word. -/
theorem shout_word (n : Nat) (h : n ≤ 255) : (BitVec.ofNat 32 (2 * 2 ^ 28 + n % 256 * 2 ^ 20)).toNat =
    2 * 2 ^ 28 + n * 2 ^ 20 := by
  simp only [BitVec.toNat_ofNat]; omega

/-- The mask of the bits `hi..lo`. -/
def fieldMask (hi lo : Nat) : CommandWord := BitVec.ofNat 32 ((2 ^ (hi - lo + 1) - 1) * 2 ^ lo)

/-- A masked field is the field at its place. -/
theorem and_fieldMask (w : CommandWord) (hi lo : Nat) :
    w &&& fieldMask hi lo = BitVec.ofNat 32 (field w hi lo * 2 ^ lo) := by
  apply BitVec.eq_of_getLsbD_eq
  intro i hi'
  simp only [fieldMask, field, BitVec.getLsbD_and, BitVec.getLsbD_ofNat, hi', decide_true, Bool.true_and,
    Nat.testBit_mul_two_pow,
    Nat.testBit_two_pow_sub_one, Nat.testBit_mod_two_pow, Nat.testBit_div_two_pow]
  by_cases h : lo ≤ i
  · simp [h, BitVec.getLsbD, Nat.sub_add_cancel h, Bool.and_comm]
  · simp [h]

end Sys2Proof
end

