-- ==== Sys2Proof/Laws/State.lean ====
section
/-! SUPPORT. The small lemmas of the state's updates: one lemma per field per update, so that no later proof unfolds
a record update. -/

namespace Sys2Proof.Machine

/-! ## `State.record` -/

@[simp] theorem State.record_data (s : State) (e : TraceEntry) : (s.record e).data = s.data := rfl
@[simp] theorem State.record_shcp (s : State) (e : TraceEntry) : (s.record e).shcp = s.shcp := rfl
@[simp] theorem State.record_stcp (s : State) (e : TraceEntry) : (s.record e).stcp = s.stcp := rfl
@[simp] theorem State.record_sr (s : State) (e : TraceEntry) : (s.record e).sr = s.sr := rfl
@[simp] theorem State.record_out (s : State) (e : TraceEntry) : (s.record e).out = s.out := rfl
@[simp] theorem State.record_pwmDuty (s : State) (e : TraceEntry) : (s.record e).pwmDuty = s.pwmDuty := rfl
@[simp] theorem State.record_pwmFreq (s : State) (e : TraceEntry) : (s.record e).pwmFreq = s.pwmFreq := rfl
@[simp] theorem State.record_halt (s : State) (e : TraceEntry) : (s.record e).halt = s.halt := rfl
@[simp] theorem State.record_cause (s : State) (e : TraceEntry) : (s.record e).cause = s.cause := rfl
@[simp] theorem State.record_trace (s : State) (e : TraceEntry) : (s.record e).trace = s.trace ++ [e] := rfl
@[simp] theorem State.record_result (s : State) (e : TraceEntry) : (s.record e).result = s.result := rfl
@[simp] theorem State.record_commands (s : State) (e : TraceEntry) : (s.record e).commands = s.commands := rfl
@[simp] theorem State.record_sensor (s : State) (e : TraceEntry) : (s.record e).sensor = s.sensor := rfl
@[simp] theorem State.record_sensorReads (s : State) (e : TraceEntry) : (s.record e).sensorReads = s.sensorReads := rfl

/-! ## `State.shift` -/

@[simp] theorem State.shift_data (s : State) : (s.shift).data = s.data := rfl
@[simp] theorem State.shift_shcp (s : State) : (s.shift).shcp = s.shcp := rfl
@[simp] theorem State.shift_stcp (s : State) : (s.shift).stcp = s.stcp := rfl
@[simp] theorem State.shift_sr (s : State) : (s.shift).sr = BitVec.ofNat 24 (2 * s.sr.toNat + s.data.toNat) := rfl
@[simp] theorem State.shift_out (s : State) : (s.shift).out = s.out := rfl
@[simp] theorem State.shift_pwmDuty (s : State) : (s.shift).pwmDuty = s.pwmDuty := rfl
@[simp] theorem State.shift_pwmFreq (s : State) : (s.shift).pwmFreq = s.pwmFreq := rfl
@[simp] theorem State.shift_halt (s : State) : (s.shift).halt = s.halt := rfl
@[simp] theorem State.shift_cause (s : State) : (s.shift).cause = s.cause := rfl
@[simp] theorem State.shift_trace (s : State) : (s.shift).trace = s.trace := rfl
@[simp] theorem State.shift_result (s : State) : (s.shift).result = s.result := rfl
@[simp] theorem State.shift_commands (s : State) : (s.shift).commands = s.commands := rfl
@[simp] theorem State.shift_sensor (s : State) : (s.shift).sensor = s.sensor := rfl
@[simp] theorem State.shift_sensorReads (s : State) : (s.shift).sensorReads = s.sensorReads := rfl

/-! ## `State.latch` -/

@[simp] theorem State.latch_data (s : State) : (s.latch).data = s.data := rfl
@[simp] theorem State.latch_shcp (s : State) : (s.latch).shcp = s.shcp := rfl
@[simp] theorem State.latch_stcp (s : State) : (s.latch).stcp = s.stcp := rfl
@[simp] theorem State.latch_sr (s : State) : (s.latch).sr = s.sr := rfl
@[simp] theorem State.latch_out (s : State) : (s.latch).out = s.sr := rfl
@[simp] theorem State.latch_pwmDuty (s : State) : (s.latch).pwmDuty = s.pwmDuty := rfl
@[simp] theorem State.latch_pwmFreq (s : State) : (s.latch).pwmFreq = s.pwmFreq := rfl
@[simp] theorem State.latch_halt (s : State) : (s.latch).halt = s.halt := rfl
@[simp] theorem State.latch_cause (s : State) : (s.latch).cause = s.cause := rfl
@[simp] theorem State.latch_trace (s : State) : (s.latch).trace = s.trace := rfl
@[simp] theorem State.latch_result (s : State) : (s.latch).result = s.result := rfl
@[simp] theorem State.latch_commands (s : State) : (s.latch).commands = s.commands := rfl
@[simp] theorem State.latch_sensor (s : State) : (s.latch).sensor = s.sensor := rfl
@[simp] theorem State.latch_sensorReads (s : State) : (s.latch).sensorReads = s.sensorReads := rfl

/-! ## `State.writePwmDuty` -/

@[simp] theorem State.writePwmDuty_data (s : State) (v : BitVec 10) : (s.writePwmDuty v).data = s.data := rfl
@[simp] theorem State.writePwmDuty_shcp (s : State) (v : BitVec 10) : (s.writePwmDuty v).shcp = s.shcp := rfl
@[simp] theorem State.writePwmDuty_stcp (s : State) (v : BitVec 10) : (s.writePwmDuty v).stcp = s.stcp := rfl
@[simp] theorem State.writePwmDuty_sr (s : State) (v : BitVec 10) : (s.writePwmDuty v).sr = s.sr := rfl
@[simp] theorem State.writePwmDuty_out (s : State) (v : BitVec 10) : (s.writePwmDuty v).out = s.out := rfl
@[simp] theorem State.writePwmDuty_pwmDuty (s : State) (v : BitVec 10) : (s.writePwmDuty v).pwmDuty = v := rfl
@[simp] theorem State.writePwmDuty_pwmFreq (s : State) (v : BitVec 10) : (s.writePwmDuty v).pwmFreq = s.pwmFreq := rfl
@[simp] theorem State.writePwmDuty_halt (s : State) (v : BitVec 10) : (s.writePwmDuty v).halt = s.halt := rfl
@[simp] theorem State.writePwmDuty_cause (s : State) (v : BitVec 10) : (s.writePwmDuty v).cause = s.cause := rfl
@[simp] theorem State.writePwmDuty_trace (s : State) (v : BitVec 10) : (s.writePwmDuty v).trace = s.trace ++ [.pwmDuty v] := rfl
@[simp] theorem State.writePwmDuty_result (s : State) (v : BitVec 10) : (s.writePwmDuty v).result = s.result := rfl
@[simp] theorem State.writePwmDuty_commands (s : State) (v : BitVec 10) : (s.writePwmDuty v).commands = s.commands := rfl
@[simp] theorem State.writePwmDuty_sensor (s : State) (v : BitVec 10) : (s.writePwmDuty v).sensor = s.sensor := rfl
@[simp] theorem State.writePwmDuty_sensorReads (s : State) (v : BitVec 10) : (s.writePwmDuty v).sensorReads = s.sensorReads := rfl

/-! ## `State.writePwmFreq` -/

@[simp] theorem State.writePwmFreq_data (s : State) (hz : Nat) : (s.writePwmFreq hz).data = s.data := rfl
@[simp] theorem State.writePwmFreq_shcp (s : State) (hz : Nat) : (s.writePwmFreq hz).shcp = s.shcp := rfl
@[simp] theorem State.writePwmFreq_stcp (s : State) (hz : Nat) : (s.writePwmFreq hz).stcp = s.stcp := rfl
@[simp] theorem State.writePwmFreq_sr (s : State) (hz : Nat) : (s.writePwmFreq hz).sr = s.sr := rfl
@[simp] theorem State.writePwmFreq_out (s : State) (hz : Nat) : (s.writePwmFreq hz).out = s.out := rfl
@[simp] theorem State.writePwmFreq_pwmDuty (s : State) (hz : Nat) : (s.writePwmFreq hz).pwmDuty = s.pwmDuty := rfl
@[simp] theorem State.writePwmFreq_pwmFreq (s : State) (hz : Nat) : (s.writePwmFreq hz).pwmFreq = hz := rfl
@[simp] theorem State.writePwmFreq_halt (s : State) (hz : Nat) : (s.writePwmFreq hz).halt = s.halt := rfl
@[simp] theorem State.writePwmFreq_cause (s : State) (hz : Nat) : (s.writePwmFreq hz).cause = s.cause := rfl
@[simp] theorem State.writePwmFreq_trace (s : State) (hz : Nat) : (s.writePwmFreq hz).trace = s.trace ++ [.pwmFreq hz] := rfl
@[simp] theorem State.writePwmFreq_result (s : State) (hz : Nat) : (s.writePwmFreq hz).result = s.result := rfl
@[simp] theorem State.writePwmFreq_commands (s : State) (hz : Nat) : (s.writePwmFreq hz).commands = s.commands := rfl
@[simp] theorem State.writePwmFreq_sensor (s : State) (hz : Nat) : (s.writePwmFreq hz).sensor = s.sensor := rfl
@[simp] theorem State.writePwmFreq_sensorReads (s : State) (hz : Nat) : (s.writePwmFreq hz).sensorReads = s.sensorReads := rfl

/-! ## `State.give` -/

@[simp] theorem State.give_data (s : State) (r : OpResult) : (s.give r).data = s.data := rfl
@[simp] theorem State.give_shcp (s : State) (r : OpResult) : (s.give r).shcp = s.shcp := rfl
@[simp] theorem State.give_stcp (s : State) (r : OpResult) : (s.give r).stcp = s.stcp := rfl
@[simp] theorem State.give_sr (s : State) (r : OpResult) : (s.give r).sr = s.sr := rfl
@[simp] theorem State.give_out (s : State) (r : OpResult) : (s.give r).out = s.out := rfl
@[simp] theorem State.give_pwmDuty (s : State) (r : OpResult) : (s.give r).pwmDuty = s.pwmDuty := rfl
@[simp] theorem State.give_pwmFreq (s : State) (r : OpResult) : (s.give r).pwmFreq = s.pwmFreq := rfl
@[simp] theorem State.give_halt (s : State) (r : OpResult) : (s.give r).halt = s.halt := rfl
@[simp] theorem State.give_cause (s : State) (r : OpResult) : (s.give r).cause = s.cause := rfl
@[simp] theorem State.give_trace (s : State) (r : OpResult) : (s.give r).trace = s.trace := rfl
@[simp] theorem State.give_result (s : State) (r : OpResult) : (s.give r).result = some r := rfl
@[simp] theorem State.give_commands (s : State) (r : OpResult) : (s.give r).commands = s.commands := rfl
@[simp] theorem State.give_sensor (s : State) (r : OpResult) : (s.give r).sensor = s.sensor := rfl
@[simp] theorem State.give_sensorReads (s : State) (r : OpResult) : (s.give r).sensorReads = s.sensorReads := rfl

/-! ## `State.raise` -/

@[simp] theorem State.raise_data (s : State) (e : FatalError) : (s.raise e).data = s.data := rfl
@[simp] theorem State.raise_shcp (s : State) (e : FatalError) : (s.raise e).shcp = s.shcp := rfl
@[simp] theorem State.raise_stcp (s : State) (e : FatalError) : (s.raise e).stcp = s.stcp := rfl
@[simp] theorem State.raise_sr (s : State) (e : FatalError) : (s.raise e).sr = s.sr := rfl
@[simp] theorem State.raise_out (s : State) (e : FatalError) : (s.raise e).out = s.out := rfl
@[simp] theorem State.raise_pwmDuty (s : State) (e : FatalError) : (s.raise e).pwmDuty = s.pwmDuty := rfl
@[simp] theorem State.raise_pwmFreq (s : State) (e : FatalError) : (s.raise e).pwmFreq = s.pwmFreq := rfl
@[simp] theorem State.raise_halt (s : State) (e : FatalError) : (s.raise e).halt = true := rfl
@[simp] theorem State.raise_cause (s : State) (e : FatalError) : (s.raise e).cause = e.code := rfl
@[simp] theorem State.raise_trace (s : State) (e : FatalError) : (s.raise e).trace = s.trace ++ [.fault e.code] := rfl
@[simp] theorem State.raise_result (s : State) (e : FatalError) : (s.raise e).result = s.result := rfl
@[simp] theorem State.raise_commands (s : State) (e : FatalError) : (s.raise e).commands = s.commands := rfl
@[simp] theorem State.raise_sensor (s : State) (e : FatalError) : (s.raise e).sensor = s.sensor := rfl
@[simp] theorem State.raise_sensorReads (s : State) (e : FatalError) : (s.raise e).sensorReads = s.sensorReads := rfl

/-! ## `State.setLevel` -/

@[simp] theorem State.setLevel_data_data (s : State) (b : Bool) : (s.setLevel .data b).data = b := rfl
@[simp] theorem State.setLevel_data_shcp (s : State) (b : Bool) : (s.setLevel .data b).shcp = s.shcp := rfl
@[simp] theorem State.setLevel_data_stcp (s : State) (b : Bool) : (s.setLevel .data b).stcp = s.stcp := rfl
@[simp] theorem State.setLevel_shcp_data (s : State) (b : Bool) : (s.setLevel .shcp b).data = s.data := rfl
@[simp] theorem State.setLevel_shcp_shcp (s : State) (b : Bool) : (s.setLevel .shcp b).shcp = b := rfl
@[simp] theorem State.setLevel_shcp_stcp (s : State) (b : Bool) : (s.setLevel .shcp b).stcp = s.stcp := rfl
@[simp] theorem State.setLevel_stcp_data (s : State) (b : Bool) : (s.setLevel .stcp b).data = s.data := rfl
@[simp] theorem State.setLevel_stcp_shcp (s : State) (b : Bool) : (s.setLevel .stcp b).shcp = s.shcp := rfl
@[simp] theorem State.setLevel_stcp_stcp (s : State) (b : Bool) : (s.setLevel .stcp b).stcp = b := rfl
@[simp] theorem State.setLevel_sr (s : State) (p : Pin) (b : Bool) : (s.setLevel p b).sr = s.sr := by cases p <;> rfl
@[simp] theorem State.setLevel_out (s : State) (p : Pin) (b : Bool) : (s.setLevel p b).out = s.out := by cases p <;> rfl
@[simp] theorem State.setLevel_pwmDuty (s : State) (p : Pin) (b : Bool) : (s.setLevel p b).pwmDuty = s.pwmDuty := by cases p <;> rfl
@[simp] theorem State.setLevel_pwmFreq (s : State) (p : Pin) (b : Bool) : (s.setLevel p b).pwmFreq = s.pwmFreq := by cases p <;> rfl
@[simp] theorem State.setLevel_halt (s : State) (p : Pin) (b : Bool) : (s.setLevel p b).halt = s.halt := by cases p <;> rfl
@[simp] theorem State.setLevel_cause (s : State) (p : Pin) (b : Bool) : (s.setLevel p b).cause = s.cause := by cases p <;> rfl
@[simp] theorem State.setLevel_trace (s : State) (p : Pin) (b : Bool) : (s.setLevel p b).trace = s.trace := by cases p <;> rfl
@[simp] theorem State.setLevel_result (s : State) (p : Pin) (b : Bool) : (s.setLevel p b).result = s.result := by cases p <;> rfl
@[simp] theorem State.setLevel_commands (s : State) (p : Pin) (b : Bool) : (s.setLevel p b).commands = s.commands := by cases p <;> rfl
@[simp] theorem State.setLevel_sensor (s : State) (p : Pin) (b : Bool) : (s.setLevel p b).sensor = s.sensor := by cases p <;> rfl
@[simp] theorem State.setLevel_sensorReads (s : State) (p : Pin) (b : Bool) : (s.setLevel p b).sensorReads = s.sensorReads := by cases p <;> rfl

@[simp] theorem State.level_data (s : State) : s.level .data = s.data := rfl
@[simp] theorem State.level_shcp (s : State) : s.level .shcp = s.shcp := rfl
@[simp] theorem State.level_stcp (s : State) : s.level .stcp = s.stcp := rfl

/-! ## `State.pinWrite` -/

@[simp] theorem State.pinWrite_data_data (s : State) (b : Bool) : (s.pinWrite .data b).data = b := by
  simp only [State.pinWrite]; split_ifs <;> rfl
@[simp] theorem State.pinWrite_data_shcp (s : State) (b : Bool) : (s.pinWrite .data b).shcp = s.shcp := by
  simp only [State.pinWrite]; split_ifs <;> rfl
@[simp] theorem State.pinWrite_data_stcp (s : State) (b : Bool) : (s.pinWrite .data b).stcp = s.stcp := by
  simp only [State.pinWrite]; split_ifs <;> rfl
@[simp] theorem State.pinWrite_shcp_data (s : State) (b : Bool) : (s.pinWrite .shcp b).data = s.data := by
  simp only [State.pinWrite]; split_ifs <;> rfl
@[simp] theorem State.pinWrite_shcp_shcp (s : State) (b : Bool) : (s.pinWrite .shcp b).shcp = b := by
  simp only [State.pinWrite]; split_ifs <;> rfl
@[simp] theorem State.pinWrite_shcp_stcp (s : State) (b : Bool) : (s.pinWrite .shcp b).stcp = s.stcp := by
  simp only [State.pinWrite]; split_ifs <;> rfl
@[simp] theorem State.pinWrite_stcp_data (s : State) (b : Bool) : (s.pinWrite .stcp b).data = s.data := by
  simp only [State.pinWrite]; split_ifs <;> rfl
@[simp] theorem State.pinWrite_stcp_shcp (s : State) (b : Bool) : (s.pinWrite .stcp b).shcp = s.shcp := by
  simp only [State.pinWrite]; split_ifs <;> rfl
@[simp] theorem State.pinWrite_stcp_stcp (s : State) (b : Bool) : (s.pinWrite .stcp b).stcp = b := by
  simp only [State.pinWrite]; split_ifs <;> rfl
@[simp] theorem State.pinWrite_pwmDuty (s : State) (p : Pin) (b : Bool) : (s.pinWrite p b).pwmDuty = s.pwmDuty := by
  simp only [State.pinWrite]; split_ifs <;> simp
@[simp] theorem State.pinWrite_pwmFreq (s : State) (p : Pin) (b : Bool) : (s.pinWrite p b).pwmFreq = s.pwmFreq := by
  simp only [State.pinWrite]; split_ifs <;> simp
@[simp] theorem State.pinWrite_halt (s : State) (p : Pin) (b : Bool) : (s.pinWrite p b).halt = s.halt := by
  simp only [State.pinWrite]; split_ifs <;> simp
@[simp] theorem State.pinWrite_cause (s : State) (p : Pin) (b : Bool) : (s.pinWrite p b).cause = s.cause := by
  simp only [State.pinWrite]; split_ifs <;> simp
@[simp] theorem State.pinWrite_trace (s : State) (p : Pin) (b : Bool) : (s.pinWrite p b).trace = s.trace ++ [.pin p b] := by
  simp only [State.pinWrite]; split_ifs <;> simp
@[simp] theorem State.pinWrite_result (s : State) (p : Pin) (b : Bool) : (s.pinWrite p b).result = s.result := by
  simp only [State.pinWrite]; split_ifs <;> simp
@[simp] theorem State.pinWrite_commands (s : State) (p : Pin) (b : Bool) : (s.pinWrite p b).commands = s.commands := by
  simp only [State.pinWrite]; split_ifs <;> simp
@[simp] theorem State.pinWrite_sensor (s : State) (p : Pin) (b : Bool) : (s.pinWrite p b).sensor = s.sensor := by
  simp only [State.pinWrite]; split_ifs <;> simp
@[simp] theorem State.pinWrite_sensorReads (s : State) (p : Pin) (b : Bool) : (s.pinWrite p b).sensorReads = s.sensorReads := by
  simp only [State.pinWrite]; split_ifs <;> simp

end Sys2Proof.Machine
end

