-- ==== Sys2Proof/Laws/Ops.lean ====
section
/-! SUPPORT. For each shared operation, what it can do, once: the pin write, the driver's scripts, the shift-out, the
sensor reads, the checks, and issuing an operation. -/

namespace Sys2Proof.Machine

/-! ## Pin writes (41 R141 to R144) -/

theorem State.pinWrite_data_eq (s : State) (b : Bool) :
    s.pinWrite .data b = { s with data := b, trace := s.trace ++ [.pin .data b] } := by
  simp [State.pinWrite, State.setLevel, State.record]

theorem State.pinWrite_shcp_rising (s : State) (h : s.shcp = false) :
    s.pinWrite .shcp true = { s with
      shcp := true
      sr := BitVec.ofNat 24 (2 * s.sr.toNat + s.data.toNat)
      trace := s.trace ++ [.pin .shcp true] } := by
  simp [State.pinWrite, State.setLevel, State.record, State.shift, h]

theorem State.pinWrite_shcp_high (s : State) (h : s.shcp = true) :
    s.pinWrite .shcp true = { s with trace := s.trace ++ [.pin .shcp true] } := by
  cases s; subst h; simp [State.pinWrite, State.setLevel, State.record]

theorem State.pinWrite_shcp_low (s : State) :
    s.pinWrite .shcp false = { s with shcp := false, trace := s.trace ++ [.pin .shcp false] } := by
  simp [State.pinWrite, State.setLevel, State.record]

theorem State.pinWrite_stcp_rising (s : State) (h : s.stcp = false) :
    s.pinWrite .stcp true = { s with stcp := true, out := s.sr, trace := s.trace ++ [.pin .stcp true] } := by
  simp [State.pinWrite, State.setLevel, State.record, State.latch, h]

theorem State.pinWrite_stcp_high (s : State) (h : s.stcp = true) :
    s.pinWrite .stcp true = { s with trace := s.trace ++ [.pin .stcp true] } := by
  cases s; cases h; simp [State.pinWrite, State.setLevel, State.record]

theorem State.pinWrite_stcp_low (s : State) :
    s.pinWrite .stcp false = { s with stcp := false, trace := s.trace ++ [.pin .stcp false] } := by
  simp [State.pinWrite, State.setLevel, State.record]

/-- Only a write of the latch clock to high touches the output latches (41 R143, R144). -/
theorem State.pinWrite_out (s : State) (p : Pin) (b : Bool) (h : (p, b) ≠ (.stcp, true)) :
    (s.pinWrite p b).out = s.out := by
  cases p <;> cases b <;> simp_all [State.pinWrite]
  split_ifs <;> simp

/-! ## Scripts -/

@[simp] theorem State.runScript_nil (s : State) : s.runScript [] = s := rfl

@[simp] theorem State.runScript_cons (s : State) (w : Pin × Bool) (ws : PinScript) :
    s.runScript (w :: ws) = (s.pinWrite w.1 w.2).runScript ws := rfl

theorem State.runScript_append (s : State) (a b : PinScript) :
    s.runScript (a ++ b) = (s.runScript a).runScript b := List.foldl_append

/-- A script changes nothing but the pins, the chain and the trace. -/
theorem State.runScript_frame (s : State) (script : PinScript) :
    (s.runScript script).pwmDuty = s.pwmDuty ∧ (s.runScript script).pwmFreq = s.pwmFreq ∧
    (s.runScript script).halt = s.halt ∧ (s.runScript script).cause = s.cause ∧
    (s.runScript script).trace = s.trace ++ pinEntries script ∧ (s.runScript script).result = s.result ∧
    (s.runScript script).commands = s.commands ∧ (s.runScript script).sensor = s.sensor ∧
    (s.runScript script).sensorReads = s.sensorReads := by
  induction script generalizing s with
  | nil => simp [pinEntries]
  | cons w ws ih =>
    obtain ⟨h1, h2, h3, h4, h5, h6, h7, h8, h9⟩ := ih (s.pinWrite w.1 w.2)
    simp only [State.runScript_cons, h1, h2, h3, h4, h5, h6, h7, h8, h9]
    simp [pinEntries]

/-- `ShiftBit(b)` begun with the shift clock low: one shift with `DATA = b` (41 R145). -/
theorem State.runScript_shiftBit (s : State) (b : Bool) (h : s.shcp = false) :
    s.runScript (shiftBit b) = { s with
      data := b
      shcp := false
      sr := BitVec.ofNat 24 (2 * s.sr.toNat + b.toNat)
      trace := s.trace ++ pinEntries (shiftBit b) } := by
  simp only [shiftBit, State.runScript_cons, State.runScript_nil]
  rw [State.pinWrite_data_eq, State.pinWrite_shcp_rising _ (by simpa using h), State.pinWrite_shcp_low]
  simp [pinEntries]

/-- The number a chain holds after bits are shifted in, before the cut to 24 bits. -/
def shiftInBits (start : Nat) (bs : List Bool) : Nat := bs.foldl (fun acc b => 2 * acc + b.toNat) start

theorem shiftInBits_mod (a b : Nat) (bs : List Bool) (h : a % 2 ^ 24 = b % 2 ^ 24) :
    shiftInBits a bs % 2 ^ 24 = shiftInBits b bs % 2 ^ 24 := by
  induction bs generalizing a b with
  | nil => simpa [shiftInBits] using h
  | cons c cs ih => exact ih (2 * a + c.toNat) (2 * b + c.toNat) (by omega)

/-- Bits shifted one after another, begun with the shift clock low. -/
theorem State.runScript_shiftBits (s : State) (bs : List Bool) (h : s.shcp = false) :
    s.runScript (bs.flatMap shiftBit) = { s with
      data := bs.getLastD s.data
      shcp := false
      sr := BitVec.ofNat 24 (shiftInBits s.sr.toNat bs)
      trace := s.trace ++ pinEntries (bs.flatMap shiftBit) } := by
  induction bs generalizing s with
  | nil => cases s; cases h; simp [shiftInBits, pinEntries]
  | cons b bs ih =>
    rw [List.flatMap_cons, State.runScript_append, State.runScript_shiftBit _ _ h, ih _ rfl]
    have hsr : BitVec.ofNat 24 (shiftInBits ((2 * s.sr.toNat + b.toNat) % 2 ^ 24) bs)
        = BitVec.ofNat 24 (shiftInBits s.sr.toNat (b :: bs)) := by
      apply BitVec.eq_of_toNat_eq
      simp only [BitVec.toNat_ofNat]
      exact shiftInBits_mod _ (2 * s.sr.toNat + b.toNat) bs (by omega)
    simp only [BitVec.toNat_ofNat, hsr, List.getLastD_cons]
    simp [pinEntries]

theorem shiftPattern_eq (p : Pattern) : shiftPattern p = (wireBits [p]).flatMap shiftBit := by
  simp [shiftPattern, wireBits]

/-- The script of `SHOUT` is one `ShiftBit` per wire bit and one latch pulse (30_encoding R84). -/
theorem shoutScript_eq (ps : List Pattern) : shoutScript ps = (wireBits ps).flatMap shiftBit ++ latchPulse := by
  simp only [shoutScript, List.append_cancel_right_eq]
  induction ps with
  | nil => rfl
  | cons p ps ih =>
    rw [List.flatMap_cons, ih, shiftPattern_eq]
    simp [wireBits]

/-- A pattern word is the sum of its elements' weights (00_scope R12). -/
theorem pattern_toNat (p : Pattern) :
    p.toNat = (p.getLsbD 0).toNat + 2 * (p.getLsbD 1).toNat + 4 * (p.getLsbD 2).toNat + 8 * (p.getLsbD 3).toNat
      + 16 * (p.getLsbD 4).toNat + 32 * (p.getLsbD 5).toNat + 64 * (p.getLsbD 6).toNat
      + 128 * (p.getLsbD 7).toNat := by
  revert p; decide +kernel

/-- Shifting in the wire bits of patterns appends their words (41 R151). -/
theorem shiftInBits_wireBits (start : Nat) (ps : List Pattern) :
    shiftInBits start (wireBits ps) = ps.foldl (fun acc p => acc * 256 + p.toNat) start := by
  induction ps generalizing start with
  | nil => rfl
  | cons p ps ih =>
    rw [List.foldl_cons, ← ih]
    have hp := pattern_toNat p
    simp only [shiftInBits, wireBits, List.flatMap_cons, List.foldl_append, List.foldl_cons, List.foldl_nil]
    congr 1
    omega

theorem wireBits_getLastD (d : Bool) (ps : List Pattern) : (wireBits ps).getLastD d = dataAfter d ps := by
  induction ps generalizing d with
  | nil => rfl
  | cons p ps ih =>
    have h := ih (p.getLsbD 0)
    simp only [dataAfter, wireBits] at *
    simp only [List.map_cons, List.flatMap_cons, List.getLastD_cons, List.cons_append, List.nil_append, h]

/-- `SHOUT` begun with both clock pins low, whole (41 R149, R151). -/
theorem State.shiftOut_eq (s : State) (ps : List Pattern) (h : s.pinsIdle) (hr : s.result = none) :
    s.shiftOut ps = s.afterShout ps := by
  obtain ⟨hc, ht⟩ := h
  rw [State.shiftOut, shoutScript_eq, State.runScript_append, State.runScript_shiftBits _ _ hc]
  simp only [latchPulse, State.runScript_cons, State.runScript_nil]
  rw [State.pinWrite_stcp_rising _ (by simpa using ht), State.pinWrite_stcp_low]
  simp only [State.afterShout, chainAfter, shiftInBits_wireBits, wireBits_getLastD, shoutScript_eq, latchPulse]
  cases s
  simp_all [pinEntries]

/-! ## The sensor (42 R171, R172) -/

theorem State.sensorRead_fst (s : State) : s.sensorRead.1 = s.sampleAt 0 := by
  unfold State.sensorRead State.sampleAt
  cases h : s.sensor <;> simp

theorem State.sensorRead_snd (s : State) :
    s.sensorRead.2 = { s with
      trace := s.trace ++ [.sensor (s.sampleAt 0)]
      sensor := s.sensor.drop 1
      sensorReads := s.sensorReads + 1 } := by
  unfold State.sensorRead State.sampleAt State.record
  cases s with
  | mk d c t sr out pd pf hl ca tr re co se n => cases se <;> simp

theorem State.sampleAt_sensorRead (s : State) (k : Nat) : s.sensorRead.2.sampleAt k = s.sampleAt (k + 1) := by
  rw [State.sensorRead_snd]
  simp only [State.sampleAt, List.length_drop, List.getElem_drop]
  by_cases h : k + 1 < s.sensor.length
  · have h' : k < s.sensor.length - 1 := by omega
    simp [h, h', Nat.add_comm]
  · have h' : ¬ k < s.sensor.length - 1 := by omega
    simp [h, h', Nat.add_comm, Nat.add_left_comm]

/-- The result port has no part in what the sensor gives. -/
theorem State.nextSamples_clearResult (s : State) (n : Nat) :
    State.nextSamples { s with result := none } n = s.nextSamples n := rfl

theorem State.nextSamples_succ (s : State) (n : Nat) :
    s.nextSamples (n + 1) = s.sampleAt 0 :: s.sensorRead.2.nextSamples n := by
  simp only [State.nextSamples, List.range_succ_eq_map, List.map_cons, List.map_map]
  congr 1
  apply List.map_congr_left
  intro k _
  exact (s.sampleAt_sensorRead k).symm

/-- `n` sequential reads, whole: the sum of the next samples, one trace entry each (42 R172). -/
theorem State.sumSamples_eq (n : Nat) (s : State) :
    State.sumSamples n s = ((s.nextSamples n).sum, { s with
      trace := s.trace ++ (s.nextSamples n).map .sensor
      sensor := s.sensor.drop n
      sensorReads := s.sensorReads + n }) := by
  induction n generalizing s with
  | zero => simp [State.sumSamples, State.nextSamples]
  | succ n ih =>
    simp only [State.sumSamples, ih, State.nextSamples_succ, State.sensorRead_fst]
    rw [State.sensorRead_snd]
    simp [Nat.add_comm, Nat.add_left_comm]

/-- A free sample keeps the limit the spec sets (42 R171). -/
theorem freeSample_le (n : Nat) : Config.freeSample n ≤ Config.adcMax :=
  Nat.lt_succ_iff.mp (Nat.mod_lt _ (Nat.succ_pos _))

/-! ## Checks, and issuing an operation (60 R224 to R229) -/

theorem issue_halted (s : State) (run : State → Outcome) (h : s.halt = true) : issue s run = .fault .halted := by
  simp [issue, h]

theorem issue_running (s : State) (run : State → Outcome) (h : s.halt = false) :
    issue s run = run { s with result := none } := by
  simp [issue, h]

/-- An issued operation that answers a next state was issued with `HALT = 0`. -/
theorem issue_next {s t : State} {run : State → Outcome} (h : issue s run = .next t) :
    s.halt = false ∧ run { s with result := none } = .next t := by
  cases hh : s.halt
  · exact ⟨rfl, by simpa [issue, hh] using h⟩
  · simp [issue, hh] at h

theorem Checked.perform_next {α : Type} {c : Checked α} {s t : State} {act : α → State}
    (h : c.perform s act = .next t) : (∃ a, c = .ok a ∧ t = act a) ∨ ∃ e, c = .raise e ∧ t = s.raise e := by
  cases c with
  | ok a => exact .inl ⟨a, rfl, by simpa [Checked.perform] using h.symm⟩
  | raise e => exact .inr ⟨e, rfl, by simpa [Checked.perform] using h.symm⟩
  | refuse r => simp [Checked.perform] at h

theorem Checked.andThen_eq_ok {α β : Type} {c : Checked α} {f : α → Checked β} {b : β} :
    c.andThen f = .ok b ↔ ∃ a, c = .ok a ∧ f a = .ok b := by
  cases c <;> simp [Checked.andThen]

theorem Checked.andThen_eq_raise {α β : Type} {c : Checked α} {f : α → Checked β} {e : FatalError} :
    c.andThen f = .raise e ↔ c = .raise e ∨ ∃ a, c = .ok a ∧ f a = .raise e := by
  cases c <;> simp [Checked.andThen]

theorem Checked.andThen_eq_refuse {α β : Type} {c : Checked α} {f : α → Checked β} {r : Refusal} :
    c.andThen f = .refuse r ↔ c = .refuse r ∨ ∃ a, c = .ok a ∧ f a = .refuse r := by
  cases c <;> simp [Checked.andThen]

/-! ## What an operation can do -/

/-- The patterns an operation shifts out, as its checks give them; `none` for an operation that shifts nothing. -/
def shiftedPatterns : Instr → Option (Checked (List Pattern))
  | .shout ps => some (.ok ps)
  | .frame a0 a1 a2 => some (encodeFrame a0 a1 a2)
  | .disp ht hu mt mu => some (encodeDigits ht hu mt mu)
  | .time h m => some (encodeTime h m)
  | .encd _ _ => none
  | .encb _ => none
  | .encr _ _ => none
  | .cduty => none
  | .pwmf _ => none
  | .pwmd _ => none

/-- The symbol an operation hands back encoded; `none` for an operation that is no encoder operation. -/
def encodedSymbol : Instr → Option (Bool × Symbol)
  | .encd x d => some (x, .digit d)
  | .encb x => some (x, .blank)
  | .encr x l => some (x, .raw l)
  | .shout _ => none
  | .frame _ _ _ => none
  | .disp _ _ _ _ => none
  | .time _ _ => none
  | .cduty => none
  | .pwmf _ => none
  | .pwmd _ => none

/-- Everything an operation that answers a next state can have done: it handed back a pattern, shifted patterns out,
raised a fatal error its checks found, computed a duty, or wrote a PWM register. -/
theorem exec_cases {i : Instr} {s t : State} (h : exec i s = .next t) : s.halt = false ∧
    ((∃ x sym p, encodedSymbol i = some (x, sym) ∧ encodeSymbol x sym = .ok p ∧
        t = { s with result := some (.pattern p) }) ∨
     (∃ ps, shiftedPatterns i = some (.ok ps) ∧ t = State.shiftOut { s with result := none } ps) ∨
     (∃ e, ((∃ x sym, encodedSymbol i = some (x, sym) ∧ encodeSymbol x sym = .raise e) ∨
        shiftedPatterns i = some (.raise e)) ∧ t = State.raise { s with result := none } e) ∨
     (i = .cduty ∧ t = s.afterCduty) ∨
     (∃ hz, i = .pwmf hz ∧ t = State.writePwmFreq { s with result := none } hz) ∨
     (∃ v, i = .pwmd v ∧ v ≤ 1023 ∧ t = State.writePwmDuty { s with result := none } (BitVec.ofNat 10 v))) := by
  cases i with
  | encd x d =>
    simp only [exec, execEncd] at h
    obtain ⟨hh, hr⟩ := issue_next h
    refine ⟨hh, ?_⟩
    rcases Checked.perform_next hr with ⟨p, hp, ht⟩ | ⟨e, he, ht⟩
    · exact .inl ⟨x, _, p, rfl, hp, ht⟩
    · exact .inr (.inr (.inl ⟨e, .inl ⟨x, _, rfl, he⟩, ht⟩))
  | encb x =>
    simp only [exec, execEncb] at h
    obtain ⟨hh, hr⟩ := issue_next h
    refine ⟨hh, ?_⟩
    rcases Checked.perform_next hr with ⟨p, hp, ht⟩ | ⟨e, he, ht⟩
    · exact .inl ⟨x, _, p, rfl, hp, ht⟩
    · exact .inr (.inr (.inl ⟨e, .inl ⟨x, _, rfl, he⟩, ht⟩))
  | encr x l =>
    simp only [exec, execEncr] at h
    obtain ⟨hh, hr⟩ := issue_next h
    refine ⟨hh, ?_⟩
    rcases Checked.perform_next hr with ⟨p, hp, ht⟩ | ⟨e, he, ht⟩
    · exact .inl ⟨x, _, p, rfl, hp, ht⟩
    · exact .inr (.inr (.inl ⟨e, .inl ⟨x, _, rfl, he⟩, ht⟩))
  | shout ps =>
    simp only [exec, execShout] at h
    obtain ⟨hh, hr⟩ := issue_next h
    exact ⟨hh, .inr (.inl ⟨ps, rfl, by simpa using hr.symm⟩)⟩
  | frame a0 a1 a2 =>
    simp only [exec, execFrame] at h
    obtain ⟨hh, hr⟩ := issue_next h
    refine ⟨hh, .inr ?_⟩
    rcases Checked.perform_next hr with ⟨ps, hp, ht⟩ | ⟨e, he, ht⟩
    · exact .inl ⟨ps, congrArg some hp, ht⟩
    · exact .inr (.inl ⟨e, .inr (congrArg some he), ht⟩)
  | disp ht hu mt mu =>
    simp only [exec, execDisp] at h
    obtain ⟨hh, hr⟩ := issue_next h
    refine ⟨hh, .inr ?_⟩
    rcases Checked.perform_next hr with ⟨ps, hp, ht⟩ | ⟨e, he, ht⟩
    · exact .inl ⟨ps, congrArg some hp, ht⟩
    · exact .inr (.inl ⟨e, .inr (congrArg some he), ht⟩)
  | time hour mn =>
    simp only [exec, execTime] at h
    obtain ⟨hh, hr⟩ := issue_next h
    refine ⟨hh, .inr ?_⟩
    rcases Checked.perform_next hr with ⟨ps, hp, ht⟩ | ⟨e, he, ht⟩
    · exact .inl ⟨ps, congrArg some hp, ht⟩
    · exact .inr (.inl ⟨e, .inr (congrArg some he), ht⟩)
  | cduty =>
    simp only [exec, execCduty] at h
    obtain ⟨hh, hr⟩ := issue_next h
    refine ⟨hh, .inr (.inr (.inr (.inl ⟨rfl, ?_⟩)))⟩
    simp only [State.sumSamples_eq, State.nextSamples_clearResult, nSamples] at hr
    simpa [State.afterCduty, State.give] using hr.symm
  | pwmf hz =>
    simp only [exec, execPwmf] at h
    obtain ⟨hh, hr⟩ := issue_next h
    exact ⟨hh, .inr (.inr (.inr (.inr (.inl ⟨hz, rfl, by simpa using hr.symm⟩))))⟩
  | pwmd v =>
    simp only [exec, execPwmd] at h
    obtain ⟨hh, hr⟩ := issue_next h
    split_ifs at hr with hv
    exact ⟨hh, .inr (.inr (.inr (.inr (.inr ⟨v, rfl, hv, by simpa using hr.symm⟩))))⟩

end Sys2Proof.Machine
end

