-- ==== Sys2Proof/Laws/Operands.lean ====
section
/-! SUPPORT. The operand forms: the pattern of a digit, of blank and of a raw list, and for each check what it can
answer (40; 41 R150; 43). -/

namespace Sys2Proof.Machine

/-! ## Patterns -/

/-- The bits and the word of a pattern from an extra bit and seven segments (30_encoding R80, R81). -/
theorem prependExtra_bits (x : Bool) (row : SegRow) : (prependExtra x row).getLsbD 0 = x ∧
   (∀ k < 7, (prependExtra x row).getLsbD (k+1) = row.getLsbD k) ∧ (prependExtra x row).toNat = x.toNat +
     2 * row.toNat := by
  revert x row; decide +kernel

/-- The pattern of blank is the extra bit alone (40 R125). -/
theorem prependExtra_blank (x : Bool) : prependExtra x 0 = BitVec.ofNat 8 x.toNat := by revert x; decide

/-- A raw list is valid when it has 8 elements, each 0 or 1 (40 R126). -/
theorem rawValid_iff (l : List Nat) : rawValid l = true ↔ (l.length = 8 ∧ ∀ e ∈ l, e = 0 ∨ e = 1) := by
  simp only [rawValid, Bool.and_eq_true, decide_eq_true_eq, List.all_eq_true]
  constructor <;> rintro ⟨a, b⟩ <;> refine ⟨a, fun e he => ?_⟩ <;> have := b e he <;> omega

/-- A malformed raw list (40 R126). -/
theorem rawValid_false_iff (l : List Nat) : rawValid l = false ↔ (l.length ≠ 8 ∨ ∃ e ∈ l, e ≠ 0 ∧ e ≠ 1) := by
  rw [← Bool.not_eq_true, rawValid_iff]
  constructor
  · intro h
    by_cases h8 : l.length = 8
    · right; by_contra hc; apply h; refine ⟨h8, fun e he => ?_⟩
      by_contra h2; apply hc; exact ⟨e, he, by omega⟩
    · left; exact h8
  · rintro (h | ⟨e, he, h0, h1⟩) ⟨h8, ha⟩
    · exact h h8
    · have := ha e he; omega

/-- Element `i` of a valid raw list is element `i` of its pattern (40 R126). -/
theorem rawPattern_bits (l : List Nat) (h : rawValid l = true) :
    ∀ i < 8, l[i]? = some ((rawPattern l).getLsbD i).toNat := by
  obtain ⟨h8, hb⟩ := (rawValid_iff l).1 h
  match l, h8 with
  | [a,b,c,d,e,f,g,k], _ =>
    simp only [List.mem_cons, List.not_mem_nil, or_false, forall_eq_or_imp, forall_eq] at hb
    obtain ⟨ha,hb,hc,hd,he,hf,hg,hk⟩ := hb
    rcases ha with rfl|rfl <;> rcases hb with rfl|rfl <;> rcases hc with rfl|rfl <;> rcases hd with rfl|rfl <;> rcases he with rfl|rfl <;> rcases hf with rfl|rfl <;> rcases hg with rfl|rfl <;> rcases hk with rfl|rfl <;> decide

/-! ## The encoder (40 R120 to R127) -/

/-- A digit 0 to 9 encodes to its row. -/
theorem encodeSymbol_digit (x : Bool) (d : Fin 10) : encodeSymbol x (.digit d.val) = .ok (prependExtra x
    (memRead d)) := by
  simp [encodeSymbol, d.isLt]

/-- What encodes is valid. -/
theorem validate_ok_of_encode {x : Bool} {sym : Symbol} {p : Pattern} (h : encodeSymbol x sym = .ok p) :
    validate sym = .ok () := by
  cases sym with
  | digit d =>
    simp only [encodeSymbol] at h
    split_ifs at h with hd
    simp [validate, show d ≤ 9 by omega]
  | blank => rfl
  | raw l => cases hv : rawValid l <;> simp_all [encodeSymbol, validate]

/-- The one fatal error of `validate`: a malformed raw list. -/
theorem validate_raise {sym e} (h : validate sym = .raise e) : e = .invalidPattern ∧ ∃ l, sym = .raw l ∧
    rawValid l = false := by
  cases sym with
  | digit d => simp only [validate] at h; split_ifs at h
  | blank => cases h
  | raw l => cases hv : rawValid l <;> simp [validate, hv] at h; exact ⟨h.symm, l, rfl, hv⟩

/-- The one refusal of `validate`: a digit above 9. -/
theorem validate_refuse {sym r} (h : validate sym = .refuse r) : r = .digitOutOfRange ∧ ∃ d, sym = .digit d ∧
    9 < d := by
  cases sym with
  | digit d => simp only [validate] at h; split_ifs at h; cases h; exact ⟨rfl, d, rfl, by omega⟩
  | blank => cases h
  | raw l => cases hv : rawValid l <;> simp [validate, hv] at h

/-- The one fatal error of the encoder: a malformed raw list. -/
theorem encodeSymbol_raise {x : Bool} {sym : Symbol} {e : FatalError} (h : encodeSymbol x sym = .raise e) :
    e = .invalidPattern ∧ ∃ l, sym = .raw l ∧ rawValid l = false := by
  cases sym with
  | digit d => simp only [encodeSymbol] at h; split_ifs at h
  | blank => cases h
  | raw l => cases hv : rawValid l <;> simp [encodeSymbol, hv] at h; exact ⟨h.symm, l, rfl, hv⟩

/-- The one refusal of the encoder: a digit above 9. -/
theorem encodeSymbol_refuse {x : Bool} {sym : Symbol} {r : Refusal} (h : encodeSymbol x sym = .refuse r) :
    r = .digitOutOfRange ∧ ∃ d, sym = .digit d ∧ 9 < d := by
  cases sym with
  | digit d => simp only [encodeSymbol] at h; split_ifs at h with hd; cases h; exact ⟨rfl, d, rfl, by omega⟩
  | blank => cases h
  | raw l => cases hv : rawValid l <;> simp [encodeSymbol, hv] at h

/-! ## Frames (41 R150) -/

/-- Three stages that encode give the frame of their patterns. -/
theorem encodeFrame_ok {a0 a1 a2 : Assignment} {p0 p1 p2} (h0 : encodeSymbol a0.extra a0.symbol =
    .ok p0) (h1 : encodeSymbol a1.extra a1.symbol = .ok p1)
  (h2 : encodeSymbol a2.extra a2.symbol = .ok p2) : encodeFrame a0 a1 a2 = .ok [p0,p1,p2] := by
  simp [encodeFrame, validate_ok_of_encode h0, validate_ok_of_encode h1, validate_ok_of_encode h2, h0, h1, h2,
    Checked.andThen]

/-- The one fatal error of a frame: a stage with a malformed raw list. -/
theorem encodeFrame_raise {a0 a1 a2 e} (h : encodeFrame a0 a1 a2 = .raise e) : e = .invalidPattern ∧
    ∃ l, (a0.symbol = .raw l ∨ a1.symbol = .raw l ∨ a2.symbol = .raw l) ∧ rawValid l = false := by
  simp only [encodeFrame, Checked.andThen_eq_raise] at h
  have fin : ∀ {sym}, (validate sym = .raise e ∨ ∃ x, encodeSymbol x sym = .raise e) → e = .invalidPattern ∧
      ∃ l, sym = .raw l ∧ rawValid l = false := by
    rintro sym (h | ⟨x, h⟩)
    · exact validate_raise h
    · exact encodeSymbol_raise h
  rcases h with h | ⟨_, _, h⟩
  · obtain ⟨he, l, hl, hv⟩ := fin (.inl h); exact ⟨he, l, .inl hl, hv⟩
  rcases h with h | ⟨_, _, h⟩
  · obtain ⟨he, l, hl, hv⟩ := fin (.inl h); exact ⟨he, l, .inr (.inl hl), hv⟩
  rcases h with h | ⟨_, _, h⟩
  · obtain ⟨he, l, hl, hv⟩ := fin (.inl h); exact ⟨he, l, .inr (.inr hl), hv⟩
  rcases h with h | ⟨_, _, h⟩
  · obtain ⟨he, l, hl, hv⟩ := fin (.inr ⟨_, h⟩); exact ⟨he, l, .inl hl, hv⟩
  rcases h with h | ⟨_, _, h⟩
  · obtain ⟨he, l, hl, hv⟩ := fin (.inr ⟨_, h⟩); exact ⟨he, l, .inr (.inl hl), hv⟩
  rcases h with h | ⟨_, _, h⟩
  · obtain ⟨he, l, hl, hv⟩ := fin (.inr ⟨_, h⟩); exact ⟨he, l, .inr (.inr hl), hv⟩
  · cases h

/-- The one refusal of a frame: a stage with a digit above 9. -/
theorem encodeFrame_refuse {a0 a1 a2 e} (h : encodeFrame a0 a1 a2 = .refuse e) : e = .digitOutOfRange ∧
    ∃ d, 9 < d ∧ (a0.symbol = .digit d ∨ a1.symbol = .digit d ∨ a2.symbol = .digit d) := by
  simp only [encodeFrame, Checked.andThen_eq_refuse] at h
  have fin : ∀ {sym}, (validate sym = .refuse e ∨ ∃ x, encodeSymbol x sym = .refuse e) →
      e = .digitOutOfRange ∧ ∃ d, sym = .digit d ∧ 9 < d := by
    rintro sym (h | ⟨x, h⟩)
    · exact validate_refuse h
    · exact encodeSymbol_refuse h
  rcases h with h | ⟨_, _, h⟩
  · obtain ⟨he, l, hl, hv⟩ := fin (.inl h); exact ⟨he, l, hv, .inl hl⟩
  rcases h with h | ⟨_, _, h⟩
  · obtain ⟨he, l, hl, hv⟩ := fin (.inl h); exact ⟨he, l, hv, .inr (.inl hl)⟩
  rcases h with h | ⟨_, _, h⟩
  · obtain ⟨he, l, hl, hv⟩ := fin (.inl h); exact ⟨he, l, hv, .inr (.inr hl)⟩
  rcases h with h | ⟨_, _, h⟩
  · obtain ⟨he, l, hl, hv⟩ := fin (.inr ⟨_, h⟩); exact ⟨he, l, hv, .inl hl⟩
  rcases h with h | ⟨_, _, h⟩
  · obtain ⟨he, l, hl, hv⟩ := fin (.inr ⟨_, h⟩); exact ⟨he, l, hv, .inr (.inl hl)⟩
  rcases h with h | ⟨_, _, h⟩
  · obtain ⟨he, l, hl, hv⟩ := fin (.inr ⟨_, h⟩); exact ⟨he, l, hv, .inr (.inr hl)⟩
  · cases h

/-- A frame of three digits. -/
theorem encodeFrame_digits (x y z : Bool) (a b c : Fin 10) :
    encodeFrame ⟨x, .digit a.val⟩ ⟨y, .digit b.val⟩ ⟨z, .digit c.val⟩ = .ok [prependExtra x (memRead a),
    prependExtra y (memRead b), prependExtra z (memRead c)] :=
  encodeFrame_ok (encodeSymbol_digit _ _) (encodeSymbol_digit _ _) (encodeSymbol_digit _ _)

/-! ## The digits of a time (43 R200 to R204) -/

/-- An hour-tens digit 0 or 1 is accepted, as the extra bit that carries it. -/
theorem hourTensBit_toNat (b : Bool) : hourTensBit b.toNat = .ok b := by cases b <;> rfl

/-- Any other hour-tens digit raises. -/
theorem hourTensBit_other {n} (h0 : n ≠ 0) (h1 : n ≠ 1) :
    hourTensBit n = .raise .invalidHourTens := by simp [hourTensBit, h0, h1]

/-- The one fatal error of the hour-tens check. -/
theorem hourTensBit_raise {n e} (h : hourTensBit n = .raise e) : e = .invalidHourTens ∧ 2 ≤ n := by
  unfold hourTensBit at h
  split_ifs at h
  cases h; exact ⟨rfl, by omega⟩

/-- The hour-tens check refuses nothing. -/
theorem hourTensBit_refuse {n e} (h : hourTensBit n = .refuse e) : False := by
  unfold hourTensBit at h
  split_ifs at h

/-- The frame of four digits, for any digits. -/
theorem encodeDigits_frame (b : Bool) (hu mt mu : Nat) : encodeDigits b.toNat hu mt mu = encodeFrame ⟨b,
    .digit hu⟩ ⟨true, .digit mt⟩ ⟨true, .digit mu⟩ := by
  simp only [encodeDigits, hourTensBit_toNat, Checked.andThen, digitStages]
  split_ifs with h
  · by_cases h1 : hu ≤ 9
    · by_cases h2 : mt ≤ 9
      · have h3 : ¬ mu ≤ 9 := by omega
        simp [encodeFrame, validate, h1, h2, h3, Checked.andThen]
      · simp [encodeFrame, validate, h1, h2, Checked.andThen]
    · simp [encodeFrame, validate, h1, Checked.andThen]
  · rfl

/-- The one fatal error of `DISP`. -/
theorem encodeDigits_raise {ht hu mt mu e} (h : encodeDigits ht hu mt mu = .raise e) : e = .invalidHourTens ∧
    2 ≤ ht := by
  rw [encodeDigits, Checked.andThen_eq_raise] at h
  rcases h with h | ⟨b, hb, h⟩
  · exact hourTensBit_raise h
  · split_ifs at h
    obtain ⟨_, l, hl, _⟩ := encodeFrame_raise h
    simp [digitStages] at hl

/-- The one refusal of `DISP`. -/
theorem encodeDigits_refuse {ht hu mt mu e} (h : encodeDigits ht hu mt mu = .refuse e) :
    e = .digitOutOfRange ∧ (9 < hu ∨ 9 < mt ∨ 9 < mu) := by
  rw [encodeDigits, Checked.andThen_eq_refuse] at h
  rcases h with h | ⟨b, hb, h⟩
  · exact (hourTensBit_refuse h).elim
  · split_ifs at h with hc
    · cases h; exact ⟨rfl, hc⟩
    · obtain ⟨_, d, hd, hl⟩ := encodeFrame_refuse h
      simp [digitStages] at hl; omega

/-- A 12-hour time is shown as its four digits. -/
theorem encodeTime_ok {h m} (h1 : 1 ≤ h) (h2 : h ≤ 12) (h3 : m ≤ 59) :
    encodeTime h m = encodeDigits (h/10) (h%10) (m/10) (m%10) := by
  have : h / 10 = 0 ∨ h / 10 = 1 := by omega
  have hn : ¬ (h < 1 ∨ 12 < h ∨ 59 < m) := by omega
  unfold encodeTime
  rw [if_neg hn]
  rcases this with e | e <;> simp [hourTensBit, e, Checked.andThen]

/-- The one fatal error of `TIME`. -/
theorem encodeTime_raise {h m e} (hh : encodeTime h m = .raise e) : e = .invalidHourTens ∧ 2 ≤ h / 10 := by
  rw [encodeTime, Checked.andThen_eq_raise] at hh
  rcases hh with hh | ⟨b, hb, hh⟩
  · exact hourTensBit_raise hh
  · split_ifs at hh
    exact encodeDigits_raise hh

/-- The one refusal of `TIME`. -/
theorem encodeTime_refuse {h m e} (hh : encodeTime h m = .refuse e) : e = .timeOutOfRange ∧ (h < 1 ∨ 12 < h ∨
    59 < m) := by
  rw [encodeTime, Checked.andThen_eq_refuse] at hh
  rcases hh with hh | ⟨b, hb, hh⟩
  · exact (hourTensBit_refuse hh).elim
  · split_ifs at hh with hc
    · cases hh; exact ⟨rfl, hc⟩
    · have := (encodeDigits_refuse hh).2; omega

end Sys2Proof.Machine
end

