-- ==== Sys2Proof/Laws/PerInstr.lean ====
section
/-! SUPPORT. A family of statements made per operation: the length of its encoding is the length its header word tells
(30_encoding R99). -/

/-- The words of a well-formed operation are as many as its header word says (30_encoding R99). -/
def Sys2Proof.Laws.EncodedLength.Statement (i : Sys2Proof.Instr) : Prop :=
  i.wf = true → ∃ h ops, Sys2Proof.encode i = h :: ops ∧ (h :: ops).length = Sys2Proof.commandLength h

open Sys2Proof

/-- A single header word whose opcode takes no operand words. -/
theorem Sys2Proof.Laws.commandLength_one (h : CommandWord) (h2 : opcode h ≠ 2) (h3 : opcode h ≠ 3) :
    [h].length = commandLength h := by
  simp [commandLength, operandCount, h2, h3]

/-- An encoder operation is one word. -/
theorem Sys2Proof.Laws.commandLength_enc (x : Bool) (sym : Symbol) (hw : sym.wf = true) :
    [encWord x sym].length = commandLength (encWord x sym) := by
  have h : opcode (encWord x sym) = 1 := (decodeSymbol_encode 1 (by omega) x sym hw).2
  exact Sys2Proof.Laws.commandLength_one _ (by omega) (by omega)

/-- The opcode of a word given as an opcode and the bits below it. -/
theorem Sys2Proof.Laws.opcode_ofNat (op low : Nat) (hop : op < 16) (hl : low < 2 ^ 28) :
    opcode (BitVec.ofNat 32 (op * 2 ^ 28 + low)) = op := by
  simp only [opcode, field, BitVec.toNat_ofNat]
  omega

theorem Sys2Proof.Laws.EncodedLength.encd (x : Bool) (d : Nat) :
    Sys2Proof.Laws.EncodedLength.Statement (.encd x d) :=
  fun hw => ⟨_, [], rfl, Sys2Proof.Laws.commandLength_enc x _ hw⟩

theorem Sys2Proof.Laws.EncodedLength.encb (x : Bool) : Sys2Proof.Laws.EncodedLength.Statement (.encb x) :=
  fun hw => ⟨_, [], rfl, Sys2Proof.Laws.commandLength_enc x _ hw⟩

theorem Sys2Proof.Laws.EncodedLength.encr (x : Bool) (l : List Nat) :
    Sys2Proof.Laws.EncodedLength.Statement (.encr x l) :=
  fun hw => ⟨_, [], rfl, Sys2Proof.Laws.commandLength_enc x _ hw⟩

theorem Sys2Proof.Laws.EncodedLength.shout (ps : List Pattern) :
    Sys2Proof.Laws.EncodedLength.Statement (.shout ps) := by
  intro hw
  simp only [Instr.wf, decide_eq_true_eq] at hw
  have hf := shout_fields ps.length hw _ (shout_word ps.length hw)
  refine ⟨_, packPatterns ps, by rw [encode], ?_⟩
  rw [List.length_cons, (packPatterns_spec ps).1, commandLength, operandCount, if_pos hf.1, hf.2.1]
  omega

theorem Sys2Proof.Laws.EncodedLength.frame (a0 a1 a2 : Assignment) :
    Sys2Proof.Laws.EncodedLength.Statement (.frame a0 a1 a2) := by
  intro _
  refine ⟨_, [symWord a0, symWord a1, symWord a2], by rw [encode], ?_⟩
  have h : opcode (BitVec.ofNat 32 (3 * 2 ^ 28)) = 3 := by decide
  rw [commandLength, operandCount, if_neg (by omega), if_pos h]
  rfl

theorem Sys2Proof.Laws.EncodedLength.disp (ht hu mt mu : Nat) :
    Sys2Proof.Laws.EncodedLength.Statement (.disp ht hu mt mu) := by
  intro _
  refine ⟨_, [], by rw [encode], ?_⟩
  have h := Sys2Proof.Laws.opcode_ofNat 4 (ht % 16 * 2 ^ 12 + hu % 16 * 2 ^ 8 + mt % 16 * 2 ^ 4 + mu % 16)
    (by omega) (by omega)
  rw [← Nat.add_assoc, ← Nat.add_assoc, ← Nat.add_assoc] at h
  exact Sys2Proof.Laws.commandLength_one _ (by omega) (by omega)

theorem Sys2Proof.Laws.EncodedLength.time (h m : Nat) : Sys2Proof.Laws.EncodedLength.Statement (.time h m) := by
  intro _
  refine ⟨_, [], by rw [encode], ?_⟩
  have hop := Sys2Proof.Laws.opcode_ofNat 5 (h % 64 * 2 ^ 8 + m % 64) (by omega) (by omega)
  rw [← Nat.add_assoc] at hop
  exact Sys2Proof.Laws.commandLength_one _ (by omega) (by omega)

theorem Sys2Proof.Laws.EncodedLength.cduty : Sys2Proof.Laws.EncodedLength.Statement .cduty :=
  fun _ => ⟨_, [], rfl, by decide⟩

theorem Sys2Proof.Laws.EncodedLength.pwmf (hz : Nat) : Sys2Proof.Laws.EncodedLength.Statement (.pwmf hz) := by
  intro _
  refine ⟨_, [], by rw [encode], ?_⟩
  have h := Sys2Proof.Laws.opcode_ofNat 7 (hz % 2 ^ 28) (by omega) (by omega)
  exact Sys2Proof.Laws.commandLength_one _ (by omega) (by omega)

theorem Sys2Proof.Laws.EncodedLength.pwmd (v : Nat) : Sys2Proof.Laws.EncodedLength.Statement (.pwmd v) := by
  intro _
  refine ⟨_, [], by rw [encode], ?_⟩
  have h := Sys2Proof.Laws.opcode_ofNat 8 (v % 2 ^ 10) (by omega) (by omega)
  exact Sys2Proof.Laws.commandLength_one _ (by omega) (by omega)
end

