-- ==== Sys2Proof/Laws/Step.lean ====
section
/-! SUPPORT. What the fetch, a step and the interface's `withFetchWord` can do (30_encoding R85, R98, R99). -/

namespace Sys2Proof.Machine

/-- With no pending command there is nothing to take. -/
theorem State.fetch_idle {s : State} (h : s.commands = []) : s.fetch = none := by
  simp [State.fetch, h]

/-- Pending words are decoded, and the words of the operation taken off. -/
theorem State.fetch_pending {s : State} (h : s.commands ≠ []) :
    s.fetch = some ((decode s.commands).map fun r => (r.1, { s with commands := r.2 })) := by
  unfold State.fetch
  split
  · rename_i hc; exact absurd hc h
  · rfl

/-- Everything a step that answers a next state can have done: nothing, while no command was pending, or the first
pending operation. -/
theorem step_cases {s t : State} (h : step s = .next t) : s.halt = false ∧
    ((s.commands = [] ∧ t = s) ∨
      ∃ i rest, decode s.commands = .ok (i, rest) ∧ exec i { s with commands := rest } = .next t) := by
  unfold step at h
  split at h
  · cases h
  · rename_i hh
    refine ⟨by simpa using hh, ?_⟩
    by_cases hc : s.commands = []
    · rw [State.fetch_idle hc] at h
      cases h
      exact .inl ⟨hc, rfl⟩
    · rw [State.fetch_pending hc] at h
      cases hd : decode s.commands with
      | error e => rw [hd] at h; cases h
      | ok r => rw [hd] at h; exact .inr ⟨r.1, r.2, rfl, h⟩

/-- `withFetchWord` changes the pending commands and nothing else (log 1). -/
theorem State.withFetchWord_eq (s : State) (nbits w : Nat) :
    ∃ ws, s.withFetchWord nbits w = { s with commands := ws ++ s.commands } := by
  unfold State.withFetchWord State.issueTableWords
  split
  · exact ⟨[], rfl⟩
  · exact ⟨_, rfl⟩

end Sys2Proof.Machine
end

