-- ==== Sys2Proof/Machine/Assembler.lean ====
section
/-! DEFINITION. The assembler syntax and its pseudo-operations (30_encoding R100, R101; decision D6). The text is a list
of characters. Where R100 says nothing (white space, empty lines, leading zeros) log 22 says what is read. -/

namespace Sys2Proof.Machine

/-! ## Tokens -/

/-- The tokens of a line. -/
inductive Token where
  /-- A mnemonic, or `BLANK`. -/
  | word (name : List Char)
  /-- A number, decimal or `0x` hexadecimal. -/
  | num (n : Nat)
  | comma
  | openList
  | closeList
  | openPair
  | closePair
deriving DecidableEq, Repr

/-- What the characters read so far begin. -/
inductive LexState where
  | idle
  /-- A word, its last character first. -/
  | word (reversed : List Char)
  /-- A single 0, which an `x` may follow. -/
  | zero
  | decimal (n : Nat)
  /-- `0x` with no digit yet. -/
  | hexStart
  | hexadecimal (n : Nat)
  /-- After `;`, to the end of the line. -/
  | comment
deriving DecidableEq, Repr

/-- The value of a decimal digit. -/
def decimalDigit (c : Char) : Option Nat :=
  if 48 ≤ c.toNat ∧ c.toNat ≤ 57 then some (c.toNat - 48) else none

/-- The value of a hexadecimal digit, of either case. -/
def hexDigit (c : Char) : Option Nat :=
  if 65 ≤ c.toNat ∧ c.toNat ≤ 70 then some (c.toNat - 55)
  else if 97 ≤ c.toNat ∧ c.toNat ≤ 102 then some (c.toNat - 87)
  else decimalDigit c

/-- A capital letter: mnemonics are in capitals (R100). -/
def isCapital (c : Char) : Bool := decide (65 ≤ c.toNat ∧ c.toNat ≤ 90)

/-- The state after one more character of the same token, or none where the token has ended. -/
def LexState.extend (st : LexState) (c : Char) : Option LexState :=
  match st with
  | .idle => none
  | .word w => if isCapital c || (decimalDigit c).isSome then some (.word (c :: w)) else none
  | .zero => if c = 'x' then some .hexStart else (decimalDigit c).map .decimal
  | .decimal n => (decimalDigit c).map fun d => .decimal (10 * n + d)
  | .hexStart => (hexDigit c).map .hexadecimal
  | .hexadecimal n => (hexDigit c).map fun d => .hexadecimal (16 * n + d)
  | .comment => some .comment

/-- The token that has ended; `0x` without a digit is no token. -/
def LexState.flush : LexState → Option (List Token)
  | .idle => some []
  | .word w => some [.word w.reverse]
  | .zero => some [.num 0]
  | .decimal n => some [.num n]
  | .hexStart => none
  | .hexadecimal n => some [.num n]
  | .comment => some []

/-- The state and the token a character begins, or none where no token begins with it. -/
def beginToken (c : Char) : Option (LexState × List Token) :=
  if c = ' ' ∨ c = '\t' ∨ c = '\r' then some (.idle, [])
  else if c = ';' then some (.comment, [])
  else if c = ',' then some (.idle, [.comma])
  else if c = '[' then some (.idle, [.openList])
  else if c = ']' then some (.idle, [.closeList])
  else if c = '(' then some (.idle, [.openPair])
  else if c = ')' then some (.idle, [.closePair])
  else if c = '0' then some (.zero, [])
  else if isCapital c then some (.word [c], [])
  else (decimalDigit c).map fun d => (.decimal d, [])

/-- The tokens of the rest of a line. -/
def lexLine : LexState → List Char → Option (List Token)
  | st, [] => st.flush
  | st, c :: cs =>
    match st.extend c with
    | some st' => lexLine st' cs
    | none => do
      let ended ← st.flush
      let (st', begun) ← beginToken c
      let rest ← lexLine st' cs
      return ended ++ begun ++ rest

/-! ## Operands -/

/-- The rest of a bracketed list of numbers, after its first element. -/
def parseListTail : List Token → Option (List Nat × List Token)
  | .closeList :: ts => some ([], ts)
  | .comma :: .num n :: ts => (parseListTail ts).map fun r => (n :: r.1, r.2)
  | _ => none

/-- A bracketed list of numbers after its opening bracket, element 0 first (R100). -/
def parseList : List Token → Option (List Nat × List Token)
  | .closeList :: ts => some ([], ts)
  | .num n :: ts => (parseListTail ts).map fun r => (n :: r.1, r.2)
  | _ => none

/-- A `bit` operand. -/
def bitOperand (n : Nat) : Option Bool :=
  if n = 0 then some false else if n = 1 then some true else none

/-- A pattern operand, written as its word (R100). -/
def patternOperand (n : Nat) : Option Pattern :=
  if n < 256 then some (BitVec.ofNat 8 n) else none

/-- A symbol: a digit, the word `BLANK`, or a raw list (R100). -/
def parseSymbol : List Token → Option (Symbol × List Token)
  | .num d :: ts => some (.digit d, ts)
  | .word w :: ts => if w = ['B', 'L', 'A', 'N', 'K'] then some (.blank, ts) else none
  | .openList :: ts => (parseList ts).map fun r => (.raw r.1, r.2)
  | _ => none

/-- An assignment `(x, symbol)` (R100). -/
def parseAssignment : List Token → Option (Assignment × List Token)
  | .openPair :: .num x :: .comma :: ts => do
    let extra ← bitOperand x
    let (symbol, rest) ← parseSymbol ts
    match rest with
    | .closePair :: rest => return (⟨extra, symbol⟩, rest)
    | _ => none
  | _ => none

/-- The three assignments of `FRAME`, to the end of the line. -/
def parseFrame (ts : List Token) : Option Instr := do
  let (a0, ts) ← parseAssignment ts
  let .comma :: ts := ts | none
  let (a1, ts) ← parseAssignment ts
  let .comma :: ts := ts | none
  let (a2, ts) ← parseAssignment ts
  let [] := ts | none
  return .frame a0 a1 a2

/-! ## Lines and programs -/

/-- A line of a program: an operation, or the pseudo-operation whose expansion carries a result (R101). -/
inductive SourceLine where
  | operation (i : Instr)
  | bright
deriving DecidableEq, Repr

/-- The operands of a mnemonic, to the end of the line (R100, R101). -/
def parseOperands (mnemonic : List Char) (ts : List Token) : Option SourceLine :=
  if mnemonic = ['E', 'N', 'C', 'D'] then
    match ts with
    | [.num x, .comma, .num d] => (bitOperand x).map fun x => .operation (.encd x d)
    | _ => none
  else if mnemonic = ['E', 'N', 'C', 'B'] then
    match ts with
    | [.num x] => (bitOperand x).map fun x => .operation (.encb x)
    | _ => none
  else if mnemonic = ['E', 'N', 'C', 'R'] then
    match ts with
    | .num x :: .comma :: .openList :: ts => do
      let x ← bitOperand x
      let (l, []) ← parseList ts | none
      return .operation (.encr x l)
    | _ => none
  else if mnemonic = ['S', 'H', 'O', 'U', 'T'] then
    match ts with
    | .openList :: ts => do
      let (l, []) ← parseList ts | none
      return .operation (.shout (← l.mapM patternOperand))
    | _ => none
  else if mnemonic = ['S', 'H', 'O', 'W', '3'] then
    match ts with
    | [.num p0, .comma, .num p1, .comma, .num p2] => do
      return .operation (show3 (← patternOperand p0) (← patternOperand p1) (← patternOperand p2))
    | _ => none
  else if mnemonic = ['F', 'R', 'A', 'M', 'E'] then (parseFrame ts).map .operation
  else if mnemonic = ['D', 'I', 'S', 'P'] then
    match ts with
    | [.num ht, .comma, .num hu, .comma, .num mt, .comma, .num mu] => some (.operation (.disp ht hu mt mu))
    | _ => none
  else if mnemonic = ['T', 'I', 'M', 'E'] then
    match ts with
    | [.num h, .comma, .num m] => some (.operation (.time h m))
    | _ => none
  else if mnemonic = ['C', 'D', 'U', 'T', 'Y'] then
    if ts = [] then some (.operation .cduty) else none
  else if mnemonic = ['P', 'W', 'M', 'F'] then
    match ts with
    | [.num hz] => some (.operation (.pwmf hz))
    | _ => none
  else if mnemonic = ['P', 'W', 'M', 'D'] then
    match ts with
    | [.num v] => some (.operation (.pwmd v))
    | _ => none
  else if mnemonic = ['B', 'R', 'I', 'G', 'H', 'T'] then
    if ts = [] then some .bright else none
  else none

/-- One line: one operation, or nothing but a comment. -/
def parseLine (line : List Char) : Option (List SourceLine) :=
  match lexLine .idle line with
  | some [] => some []
  | some (.word mnemonic :: ts) => (parseOperands mnemonic ts).map fun l => [l]
  | some _ => none
  | none => none

/-- The lines of a text. -/
def splitLines : List Char → List (List Char)
  | [] => [[]]
  | c :: cs =>
    match splitLines cs with
    | [] => [[c]]
    | line :: rest => if c = '\n' then [] :: line :: rest else (c :: line) :: rest

/-- The program of a text, one operation per line; none where a line is not of the syntax (R100). -/
def assemble (text : List Char) : Option (List SourceLine) :=
  ((splitLines text).mapM parseLine).map List.flatten

/-- The command words of a line; `BRIGHT` has none of its own, as its second operation
depends on the result of its first (R85, R101). A raw list saturates in its word (R87), and an operand its field
cannot carry has no word. -/
def lineWords : SourceLine → Option (List CommandWord)
  | .operation i => commandWords i
  | .bright => none

/-- What the host does for a line. -/
def runLine : SourceLine → State → Outcome
  | .operation i, s => exec i s
  | .bright, s => bright s

/-- A program, line after line (70 R275). -/
def runProgram : List SourceLine → State → Outcome
  | [], s => .next s
  | l :: ls, s => thenDo (runLine l s) (runProgram ls)

end Sys2Proof.Machine
end

