-- ==== Sys2Proof/Tests/Slice0.lean ====
section
/-! SUPPORT. The model's own tests: the well-formedness smoke test, the decoder on words written out from the spec's
encodings, single steps against the spec's vectors (95_test_vectors), and a witness for each statement with
hypotheses. -/

namespace Sys2Proof.Tests
open Sys2Proof Sys2Proof.Machine

/-! ## Helpers -/

/-- An idle state after reset, with chosen values in the unspecified registers (those of V-S5). -/
def idle : State := State.resetWith 0xABCDEF 0x123456 5 7

/-- An idle state whose chain and outputs show 1:07 (V-S10). -/
def showing : State := State.resetWith 0x0C7F0F 0x0C7F0F 5 7

/-- An idle state whose next 100 samples are all `v`. -/
def lit (v : Nat) : State := { idle with sensor := List.replicate 100 v }

/-- A halted state. -/
def dead : State := idle.afterFault 1

/-- The next state of an outcome, `dead` where there is none. -/
def after : Outcome → State
  | .next s => s
  | .fault _ => dead
  | .refused _ => dead

/-- The step that runs the operation of one command word. -/
def run (s : State) (w : Nat) : State := after (step (s.withFetchWord 32 w))

/-- Why words are no command. -/
def why (ws : List CommandWord) : Option BadCommand :=
  match decode ws with
  | .ok _ => none
  | .error e => some e

/-! ## Well-formedness: each check refuses an ill-formed term -/

theorem test_wf_encd_digit : (Instr.encd true 15).wf = true ∧ (Instr.encd true 16).wf = false := by decide
theorem test_wf_encb : (Instr.encb true).wf = true := by decide
theorem test_wf_encr_length : (Instr.encr true (List.replicate 15 0)).wf = true ∧
    (Instr.encr true (List.replicate 16 0)).wf = false := by decide
theorem test_wf_encr_element : (Instr.encr true [3]).wf = true ∧ (Instr.encr true [4]).wf = false := by decide
theorem test_wf_encr_ninth : (Instr.encr true [0, 0, 0, 0, 0, 0, 0, 0, 1]).wf = false := by decide
theorem test_wf_shout : (Instr.shout (List.replicate 255 0)).wf = true ∧
    (Instr.shout (List.replicate 256 0)).wf = false := by decide +kernel
theorem test_wf_frame : (Instr.frame ⟨true, .digit 15⟩ ⟨true, .blank⟩ ⟨true, .raw [3]⟩).wf = true ∧
    (Instr.frame ⟨true, .digit 16⟩ ⟨true, .blank⟩ ⟨true, .blank⟩).wf = false ∧
    (Instr.frame ⟨true, .blank⟩ ⟨true, .raw [4]⟩ ⟨true, .blank⟩).wf = false ∧
    (Instr.frame ⟨true, .blank⟩ ⟨true, .blank⟩ ⟨true, .digit 99⟩).wf = false := by decide
theorem test_wf_disp : (Instr.disp 15 15 15 15).wf = true ∧ (Instr.disp 16 0 0 0).wf = false ∧
    (Instr.disp 0 16 0 0).wf = false ∧ (Instr.disp 0 0 16 0).wf = false ∧ (Instr.disp 0 0 0 16).wf = false := by
  decide
theorem test_wf_time : (Instr.time 63 63).wf = true ∧ (Instr.time 64 0).wf = false ∧
    (Instr.time 0 64).wf = false := by decide
theorem test_wf_cduty : Instr.cduty.wf = true := by decide
theorem test_wf_pwmf : (Instr.pwmf 268435455).wf = true ∧ (Instr.pwmf 268435456).wf = false := by decide
theorem test_wf_pwmd : (Instr.pwmd 1023).wf = true ∧ (Instr.pwmd 1024).wf = false := by decide

/-! ## Decoding words written out field by field (30_encoding R86 to R94) -/

/-- An `ENC` or `SYM` word: opcode, `kind`, `x`, `n`, `d`, the zero bit 16, `E`. -/
def encBits (op : BitVec 4) (kind : BitVec 2) (x : BitVec 1) (n d : BitVec 4) (e : BitVec 16) : CommandWord :=
  op ++ kind ++ x ++ n ++ d ++ 0b0#1 ++ e

/-- V-E18: `ENCD 1, 7`. -/
theorem test_decode_encd : decode [encBits 0b0001 0b00 0b1 0 0b0111 0] = .ok (.encd true 7, []) := by decide
/-- V-E22: a digit above 9 decodes; the machine refuses it. -/
theorem test_decode_encd_15 : decode [0x121E0000] = .ok (.encd true 15, []) := by decide
/-- V-E24: `ENCB 1`. -/
theorem test_decode_encb : decode [encBits 0b0001 0b01 0b1 0 0 0] = .ok (.encb true, []) := by decide
/-- V-E28: `ENCR 1, [0,1,1,0,1,1,0,1]`, two bits an element, element 0 lowest. -/
theorem test_decode_encr :
    decode [encBits 0b0001 0b10 0b1 0b1000 0 0b0100010100010100] = .ok (.encr true [0, 1, 1, 0, 1, 1, 0, 1], []) := by
  decide
/-- V-E30: nine elements, the ninth not carried. -/
theorem test_decode_encr_nine :
    decode [0x19204001] = .ok (.encr false [1, 0, 0, 0, 0, 0, 0, 1, 0], []) := by decide
/-- V-S8: `SHOUT [1,2,3,4,5]`, two operand words. -/
theorem test_decode_shout : decode [0b0010#4 ++ 0b00000101#8 ++ 0#20, 0x01#8 ++ 0x02#8 ++ 0x03#8 ++ 0x04#8,
    0x05#8 ++ 0x00#24, 0x60000000] = .ok (.shout [1, 2, 3, 4, 5], [0x60000000]) := by decide
/-- V-S4: `SHOUT []`. -/
theorem test_decode_shout_empty : decode [0x20000000] = .ok (.shout [], []) := by decide
/-- V-F3: `FRAME (0,1), (1,BLANK), (1,[1,1,1,1,1,1,1,1])`. -/
theorem test_decode_frame : decode [0b0011#4 ++ 0#28, encBits 0 0b00 0b0 0 0b0001 0, encBits 0 0b01 0b1 0 0 0,
    encBits 0 0b10 0b1 0b1000 0 0b0101010101010101] =
      .ok (.frame ⟨false, .digit 1⟩ ⟨true, .blank⟩ ⟨true, .raw [1, 1, 1, 1, 1, 1, 1, 1]⟩, []) := by decide
/-- V-D2: `DISP 1,2,5,9`. -/
theorem test_decode_disp : decode [0b0100#4 ++ 0#12 ++ 0b0001#4 ++ 0b0010#4 ++ 0b0101#4 ++ 0b1001#4] =
    .ok (.disp 1 2 5 9, []) := by decide
/-- V-T2: `TIME 12, 59`. -/
theorem test_decode_time : decode [0b0101#4 ++ 0#14 ++ 0b001100#6 ++ 0#2 ++ 0b111011#6] =
    .ok (.time 12 59, []) := by decide
theorem test_decode_cduty : decode [0b0110#4 ++ 0#28] = .ok (.cduty, []) := by decide
/-- V-P1: `PWMF 1000`. -/
theorem test_decode_pwmf : decode [0b0111#4 ++ 0b0000000000000000001111101000#28] = .ok (.pwmf 1000, []) := by decide
/-- V-P3: `PWMD 638`. -/
theorem test_decode_pwmd : decode [0b1000#4 ++ 0#18 ++ 0b1001111110#10] = .ok (.pwmd 638, []) := by decide

/-- V-X1 to V-X16: the words that are no commands, each by its reason. -/
theorem test_reject : [[0x00000000], [0x90000000], [0xF0000000], [0x1C000000], [0x10010000], [0x14020000],
    [0x10000001], [0x18000001], [0x20100001, 0x81000000], [0x20100000, 0x81000001],
    [0x30000001, 0x04000000, 0x04000000, 0x04000000], [0x30000000, 0x10020000, 0x04000000, 0x04000000],
    [0x40010000], [0x50000040], [0x60000001], [0x80000400], [0x20300000]].map why =
    [some .reservedOpcode, some .reservedOpcode, some .reservedOpcode, some .reservedKind, some .nonzeroReserved,
      some .nonzeroReserved, some .nonzeroReserved, some .elementPastLength, some .nonzeroReserved,
      some .bytePastCount, some .nonzeroReserved, some .symbolWordOpcode, some .nonzeroReserved,
      some .nonzeroReserved, some .nonzeroReserved, some .nonzeroReserved, some .truncated] := by decide

/-- V-E33, V-E34: a raw list saturates in its word. -/
theorem test_encode_saturates : encode (.encr false [0, 0, 0, 0, 0, 0, 0, 7]) = [0x1900C000] ∧
    encode (.encr false (List.replicate 20 0)) = [0x19E00000] := by decide
/-- The words of V-S7 and V-F4. -/
theorem test_encode_words : encode (.shout [0xFF, 0x0C, 0x7F, 0x0F]) = [0x20400000, 0xFF0C7F0F] ∧
    encode (.frame ⟨true, .digit 2⟩ ⟨true, .raw [1, 0, 0]⟩ ⟨true, .digit 12⟩) =
      [0x30000000, 0x02040000, 0x0A600001, 0x02180000] := by decide

/-! ## The assembler (30_encoding R100) -/

theorem test_assemble : assemble
    ("ENCR 0, [1,0,0,0,0,0,0,1]\nSHOUT [0x0C, 0x7F, 0x0F] ; 1:07\n\nFRAME (0,1), (1,BLANK), (1,[0])\nBRIGHT").toList =
    some [.operation (.encr false [1, 0, 0, 0, 0, 0, 0, 1]), .operation (.shout [0x0C, 0x7F, 0x0F]),
      .operation (.frame ⟨false, .digit 1⟩ ⟨true, .blank⟩ ⟨true, .raw [0]⟩), .bright] := by decide +kernel
theorem test_assemble_rejects : assemble "encb 0".toList = none ∧ assemble "ENCB 2".toList = none ∧
    assemble "TIME 1 7".toList = none := by decide +kernel

/-- V-E33, V-E34, and a saturating raw list inside `FRAME`: the lines have their saturated words (R87). -/
theorem test_line_saturates : lineWords (.operation (.encr false [0, 0, 0, 0, 0, 0, 0, 7])) = some [0x1900C000] ∧
    lineWords (.operation (.encr false (List.replicate 20 0))) = some [0x19E00000] ∧
    lineWords (.operation (.frame ⟨false, .blank⟩ ⟨true, .raw [0, 0, 0, 0, 0, 0, 0, 7]⟩ ⟨true, .blank⟩)) =
      some [0x30000000, 0x04000000, 0x0B00C000, 0x06000000] := by decide
/-- An operand above its field has no word (30_encoding R90; V-P8). -/
theorem test_line_without_word : lineWords (.operation (.disp 0 16 0 0)) = none ∧
    lineWords (.operation (.pwmd 1024)) = none ∧ lineWords (.operation (.encd false 16)) = none := by decide
/-- V-X16: a header whose operand words are not pending is refused as truncated (log 23). -/
theorem test_truncated : step { idle with commands := [0x20300000] } =
    .refused (.invalidCommandWord .truncated) := rfl

/-! ## Single steps against the vectors -/

/-- V-E2 (T). -/
theorem test_encd : (run idle 0x10020000).result = some (.pattern 0x0C) := by decide
/-- V-E12 (T): `1 + 2*row`. -/
theorem test_encd_extra : (run idle 0x12020000).result = some (.pattern 0x0D) := by decide
/-- V-E24. -/
theorem test_encb : (run idle 0x16000000).result = some (.pattern 0x01) := by decide
/-- V-E25, V-E26: element `i` is bit `i`, and `x` is ignored. -/
theorem test_encr : (run idle 0x19004001).result = some (.pattern 0x81) ∧
    (run idle 0x1B000000).result = some (.pattern 0) := by decide
/-- V-E29: fault 1. -/
theorem test_encr_fault : (run idle 0x18E00001).halt = true ∧ (run idle 0x18E00001).cause = 1 ∧
    (run idle 0x18E00001).trace = [.fault 1] := by decide
/-- V-S5 and V-S6: older bits move up. -/
theorem test_shout : (after (exec (.shout [0x12]) idle)).out = 0xCDEF12 ∧
    (after (exec (.shout [0x12, 0x34]) idle)).sr = 0xEF1234 := by decide +kernel
/-- V-S10: the full trace of `SHOUT [0x81]`, 26 entries. -/
theorem test_shout_trace : (after (exec (.shout [0x81]) showing)).trace = pinEntries
    ([(.data, true), (.shcp, true), (.shcp, false)] ++
      (List.replicate 6 [(.data, false), (.shcp, true), (.shcp, false)]).flatten ++
      [(.data, true), (.shcp, true), (.shcp, false), (.stcp, true), (.stcp, false)]) := by decide +kernel
/-- The hazard vectors of 95 2.2: a high `SHCP` loses the first bit. -/
theorem test_hazard_shcp : (after (exec (.shout [0x0C, 0x7F, 0x0F])
    { idle with shcp := true, sr := 0xFFFFFF })).out = 0x8C7F0F := by decide +kernel
/-- The hazard vectors of 95 2.2: a high `STCP` latches nothing. -/
theorem test_hazard_stcp : (after (exec (.shout [0x0C, 0x7F, 0x0F])
    { idle with stcp := true, out := 0x555555 })).out = 0x555555 := by decide +kernel
/-- 95 2.2, intermediate states: after 16 shift pulses. -/
theorem test_partial : (showing.runScript ((shoutScript [0xB7, 0xDB, 0xDF]).take 48)).sr = 0x0FB7DB ∧
    (showing.runScript ((shoutScript [0xB7, 0xDB, 0xDF]).take 48)).out = 0x0C7F0F := by decide +kernel
/-- V-F3 (T). -/
theorem test_frame : (after (exec (.frame ⟨false, .digit 1⟩ ⟨true, .blank⟩ ⟨true, .raw [1, 1, 1, 1, 1, 1, 1, 1]⟩)
    idle)).out = 0x0C01FF := by decide +kernel
/-- V-F4, V-F5: the first bad stage decides. -/
theorem test_frame_bad :
    exec (.frame ⟨true, .digit 2⟩ ⟨true, .raw [1, 0, 0]⟩ ⟨true, .digit 12⟩) idle = .next (idle.afterFault 1) ∧
    exec (.frame ⟨true, .digit 12⟩ ⟨true, .raw [1, 0, 0]⟩ ⟨true, .digit 3⟩) idle = .refused .digitOutOfRange :=
  ⟨rfl, rfl⟩
/-- V-D2 (T). -/
theorem test_disp : (run idle 0x40001259).out = 0xB7DBDF := by decide +kernel
/-- V-D13, V-D15: the hour-tens check comes first. -/
theorem test_disp_bad : exec (.disp 2 12 0 0) idle = .next (idle.afterFault 2) ∧
    exec (.disp 0 12 0 0) idle = .refused .digitOutOfRange := ⟨rfl, rfl⟩
/-- V-T1 (T). -/
theorem test_time : (run idle 0x50000107).out = 0x0C7F0F := by decide +kernel
/-- V-T9, V-T10: the hour-tens check comes before the domain check. -/
theorem test_time_bad : exec (.time 20 60) idle = .next (idle.afterFault 2) ∧
    exec (.time 13 7) idle = .refused .timeOutOfRange := ⟨rfl, rfl⟩
/-- V-B14, one step: 638, not the source's 639. -/
theorem test_cduty : (run (lit 50) 0x60000000).result = some (.duty 638) := by decide +kernel
/-- V-B3, V-B7, V-B9, V-B13, V-B15, V-B23, V-B24: the duties at the edges. -/
theorem test_duty_edges : dutyOfSum 1499 = 1 ∧ dutyOfSum 2515 = 1 ∧ dutyOfSum 2517 = 2 ∧ dutyOfSum 4950 = 634 ∧
    dutyOfSum 5001 = 639 ∧ dutyOfSum 1529419 = 1021 ∧ dutyOfSum 1529420 = 1022 := by decide +kernel
/-- V-P1. -/
theorem test_pwmf : (run idle 0x700003E8).pwmFreq = 1000 ∧ (run idle 0x700003E8).pwmDuty = 5 := by decide
/-- V-P3, V-P8. -/
theorem test_pwmd : (run idle 0x8000027E).pwmDuty = 638 ∧ exec (.pwmd 1024) idle = .refused .dutyOutOfRange :=
  ⟨by decide, rfl⟩
/-- `BRIGHT` sets the duty `CDUTY` computes (program P1). -/
theorem test_bright : (after (bright (lit 50))).pwmDuty = 638 := by decide +kernel
/-- A halted block has no step (program P3), and an idle one waits. -/
theorem test_halted : step dead = .fault .halted ∧ step idle = .next idle := ⟨rfl, rfl⟩
/-- V-X1: a word that is no command is refused. -/
theorem test_bad_word : step (idle.withFetchWord 32 0) = .refused (.invalidCommandWord .reservedOpcode) := rfl

/-! ## Witnesses: for each statement with hypotheses, a state and operands that meet them

`idle`, `lit`, `dead` are the states; each clause's boundary values are the operands. -/

theorem idle_ready : idle.halt = false ∧ idle.pinsIdle := ⟨rfl, rfl, rfl⟩

/-- A valid raw list, and lists that are malformed by one element too few, one too many, and the value 2. -/
theorem raw_lists : (([1, 0, 0, 0, 0, 0, 0, 1] : List Nat).length = 8 ∧
      ∀ e ∈ ([1, 0, 0, 0, 0, 0, 0, 1] : List Nat), e = 0 ∨ e = 1) ∧
    ([0, 0, 0, 0, 0, 0, 0] : List Nat).length ≠ 8 ∧ ([0, 0, 0, 0, 0, 0, 0, 0, 0] : List Nat).length ≠ 8 ∧
    ∃ e ∈ ([0, 0, 0, 0, 0, 0, 0, 2] : List Nat), e ≠ 0 ∧ e ≠ 1 := by decide

theorem witness_EncdGivesRowWithExtraBit : idle.halt = false := rfl
theorem witness_EncdRefusesNonDigits : idle.halt = false ∧ 9 < 10 := by decide
theorem witness_EncbGivesExtraBitAlone : idle.halt = false ∧ 1 ≤ 1 := by decide
theorem witness_EncrPassesValidListElseFaults : idle.halt = false ∧
    (([0, 0, 0, 0, 0, 0, 0, 1] : List Nat).length = 8 ∧
      ∀ e ∈ ([0, 0, 0, 0, 0, 0, 0, 1] : List Nat), e = 0 ∨ e = 1) ∧
    ([] : List Nat).length ≠ 8 ∧ ∃ e ∈ ([0, 0, 0, 0, 0, 0, 0, 2] : List Nat), e ≠ 0 ∧ e ≠ 1 := by decide
theorem witness_ExtraBitIndependentOfSymbol : idle.halt = false ∧ ([0, 0, 0, 0, 0, 0, 0, 1] : List Nat).length = 8 ∧
    ∀ e ∈ ([0, 0, 0, 0, 0, 0, 0, 1] : List Nat), e = 0 ∨ e = 1 := by decide
theorem witness_EncoderTableAndMalformedRaw : ([0, 0, 0, 0, 0, 0, 0] : List Nat).length ≠ 8 ∧
    ∃ e ∈ ([2, 0, 0, 0, 0, 0, 0, 0] : List Nat), e ≠ 0 ∧ e ≠ 1 := by decide
theorem witness_PinWriteReactsToRisingEdges : idle.level .shcp = false ∧ idle.level .stcp = false ∧
    State.level { idle with shcp := true } .shcp = true := by decide
theorem witness_ShiftBitIsOneShift : idle.shcp = false := rfl
theorem witness_LatchPulseIsOneLatch : idle.stcp = false := rfl
theorem witness_ShiftPatternMovesChainByEight : idle.shcp = false := rfl
theorem witness_PatternSentMostSignificantFirst : idle.shcp = false := rfl
theorem witness_FrameOnTheWire : idle.pinsIdle ∧ idle.halt = false ∧ ([1, 2, 3] : List Pattern).length = 3 ∧
    23 < 8 * ([1, 2, 3] : List Pattern).length := ⟨⟨rfl, rfl⟩, rfl, rfl, by decide⟩
theorem witness_ShoutEndState : idle.halt = false ∧ idle.pinsIdle := idle_ready
theorem witness_ShoutEndStateByStage : idle.halt = false ∧ idle.pinsIdle ∧
    7 < 8 * ([0x12] : List Pattern).length ∧ 8 * ([0x12] : List Pattern).length ≤ 8 := ⟨rfl, ⟨rfl, rfl⟩, by decide⟩
theorem witness_FramePatternOrder : idle.halt = false ∧ idle.pinsIdle := idle_ready
theorem witness_FrameWordReachesOutputs : idle.halt = false ∧ idle.pinsIdle := idle_ready
theorem witness_ShoutPinWriteCounts : idle.halt = false := rfl
theorem witness_PartialFramesNeverVisible : idle.pinsIdle ∧ 72 ≤ 24 * ([1, 2, 3] : List Pattern).length ∧
    24 * ([1, 2, 3] : List Pattern).length < 73 := ⟨⟨rfl, rfl⟩, by decide⟩
/-- A running `SHOUT` answers the shifted-out state. -/
theorem shout_next (s : State) (ps : List Pattern) (h : s.halt = false) :
    exec (.shout ps) s = .next (State.shiftOut { s with result := none } ps) := by
  simp [exec, execShout, issue, h]
theorem witness_WholeFrameIdempotent : idle.pinsIdle ∧ 3 ≤ ([1, 2, 3] : List Pattern).length ∧
    ∃ t u, exec (.shout [1, 2, 3]) idle = .next t ∧ exec (.shout [1, 2, 3]) t = .next u :=
  ⟨⟨rfl, rfl⟩, by decide, _, _, shout_next _ _ rfl, shout_next _ _ (by decide +kernel)⟩
theorem witness_HighClockSwallowsPulse : ({ idle with stcp := true } : State).halt = false ∧
    ({ idle with stcp := true } : State).stcp = true ∧ ({ idle with shcp := true } : State).halt = false ∧
    ({ idle with shcp := true } : State).shcp = true ∧ ({ idle with shcp := true } : State).stcp = false := by decide
theorem witness_FrameShiftsItsEncodings : idle.halt = false ∧ idle.pinsIdle ∧
    encodeSymbol true (.digit 9) = .ok 0xDF ∧ encodeSymbol true .blank = .ok 0x01 ∧
    encodeSymbol false (.raw [1, 0, 0, 0, 0, 0, 0, 1]) = .ok 0x81 := ⟨rfl, ⟨rfl, rfl⟩, by decide⟩
/-- V-F4 and V-F5, and a bad stage 2: a bad stage at each place. -/
theorem witness_FrameFirstBadStageDecides : idle.halt = false ∧ validate (.digit 9) = .ok () ∧
    (Assignment.mk true (.raw [1, 0, 0])).symbol = .raw [1, 0, 0] ∧ ([1, 0, 0] : List Nat).length ≠ 8 ∧
    (Assignment.mk true (.digit 10)).symbol = .digit 10 ∧ 9 < 10 := by decide
theorem witness_FrameIsEncodersThenShout : ∃ t0 t1 t2,
    exec (encoderInstr ⟨false, .digit 1⟩) idle = .next t0 ∧ t0.result = some (.pattern 0x0C) ∧
    exec (encoderInstr ⟨true, .blank⟩) t0 = .next t1 ∧ t1.result = some (.pattern 0x01) ∧
    exec (encoderInstr ⟨true, .raw [1, 1, 1, 1, 1, 1, 1, 1]⟩) t1 = .next t2 ∧ t2.result = some (.pattern 0xFF) :=
  ⟨_, _, _, rfl, rfl, rfl, rfl, rfl, rfl⟩
theorem witness_DispShowsFourDigits : idle.halt = false ∧ idle.pinsIdle := idle_ready
theorem witness_HourTensValidated : idle.halt = false ∧ 2 ≠ 0 ∧ 2 ≠ 1 ∧ 20 / 10 ≠ 0 ∧ 20 / 10 ≠ 1 ∧ 1 ≤ 1 ∧
    12 ≤ 12 ∧ 59 ≤ 59 := by decide
theorem witness_DispAndTimeRefusals : idle.halt = false ∧ 9 < 10 ∧ 19 < 20 ∧ 12 < 13 ∧ 59 < 60 := by decide
theorem witness_TimeDecomposedIntoDigits : 1 ≤ 12 ∧ 12 ≤ 12 ∧ 59 ≤ 59 := by decide
theorem witness_TimeShownOnDisplay : idle.halt = false ∧ idle.pinsIdle ∧ 1 ≤ 12 ∧ 12 ≤ 12 ∧ 59 ≤ 59 :=
  ⟨rfl, ⟨rfl, rfl⟩, by decide⟩
theorem witness_CdutyReadsHundredSamples : (lit 50).halt = false := rfl
/-- Two different sensors with the same sum: fifty times 49 and 51, a hundred times 50. -/
theorem witness_CdutyDependsOnSampleSumOnly : (lit 50).halt = false ∧
    ({ idle with sensor := List.replicate 50 49 ++ List.replicate 50 51 } : State).halt = false ∧
    ((lit 50).nextSamples 100).sum =
      (State.nextSamples { idle with sensor := List.replicate 50 49 ++ List.replicate 50 51 } 100).sum :=
  ⟨rfl, rfl, by decide +kernel⟩
theorem witness_LowAverageGivesMinimumDuty : 1499 < 1500 ∧ 1500 ≥ 1500 := by decide
theorem witness_ClampActsOnlyBelow : 1500 ≥ 1500 ∧ 2515 ≤ 2515 := by decide
theorem witness_DutyIntegerClosedForm : 1500 ≥ 1500 := by decide
theorem witness_DutyNondecreasing : 1500 ≤ 2517 := by decide
theorem witness_PwmfWritesFrequency : idle.halt = false := rfl
theorem witness_PwmdWritesDuty : idle.halt = false ∧ 1023 ≤ 1023 ∧ 1023 < 1024 := by decide
theorem witness_BrightSetsComputedDuty : (lit 50).halt = false := rfl
theorem witness_PwmFractionLinear : ({ idle with pwmDuty := 0 } : State).pwmDuty = 0 ∧
    ({ idle with pwmDuty := 1023 } : State).pwmDuty = 1023 ∧ idle.pwmDuty.toNat ≤ idle.pwmDuty.toNat := by decide
theorem witness_FaultsPrecise : ∃ t, exec (.disp 2 0 0 0) idle = .next t ∧ t.halt = true := ⟨_, rfl, rfl⟩
theorem witness_InvalidPatternRaisers : idle.halt = false ∧ ([0, 0, 0, 0, 0, 0, 0, 0, 0] : List Nat).length ≠ 8 ∧
    ∃ t, exec (.frame ⟨false, .digit 9⟩ ⟨false, .raw [2]⟩ ⟨false, .blank⟩) idle = .next t ∧ t.halt = true ∧
      t.cause = 1 := ⟨rfl, by decide, _, rfl, rfl, rfl⟩
theorem witness_InvalidHourTensRaisers : idle.halt = false ∧ 2 ≤ 2 ∧ 2 ≤ 20 / 10 ∧
    ∃ t, exec (.time 20 0) idle = .next t ∧ t.halt = true ∧ t.cause = 2 := ⟨rfl, by decide, by decide, _, rfl, rfl, rfl⟩
theorem witness_StopsAreTheListedOnes : exec (.encd false 10) idle = .refused .digitOutOfRange ∧
    exec (.time 13 7) idle = .refused .timeOutOfRange ∧ exec (.pwmd 1024) idle = .refused .dutyOutOfRange ∧
    exec .cduty dead = .fault .halted := ⟨rfl, rfl, rfl, rfl⟩
theorem witness_HaltedStateIsFinal : dead.halt = true := rfl
theorem witness_StateOwnership : ∃ t, exec (.pwmd 1023) idle = .next t ∧ t.halt = false := ⟨_, rfl, rfl⟩
theorem witness_ResultPortByOperation : (∃ t, exec .cduty (lit 50) = .next t ∧ t.halt = false) ∧
    ∃ t, exec (.encr true []) idle = .next t ∧ t.halt = true := ⟨⟨_, rfl, by decide +kernel⟩, ⟨_, rfl, rfl⟩⟩
theorem witness_HiddenStateNeverRead : ∃ t, exec (.shout [1]) idle = .next t := ⟨_, rfl⟩
theorem witness_TraceExplainsEveryStep : ∃ t, step (idle.withFetchWord 32 0x40002000) = .next t := ⟨_, rfl⟩

/-- The states the tests start from meet the invariant. -/
theorem idle_inv : idle.Inv where
  pins := ⟨rfl, rfl⟩
  status := .inl ⟨rfl, rfl⟩
  traceStatus := ⟨by intro _ _; exact List.not_mem_nil, by intro h; exact absurd h (by decide)⟩
  samples := ⟨by intro _ h; exact absurd h List.not_mem_nil, by intro _ h; exact absurd h List.not_mem_nil⟩
  result := by intro _ h; exact absurd h (by simp [idle, State.resetWith])

theorem witness_StepKeepsInvariant : ∃ t, (idle.withFetchWord 32 0x50000107).Inv ∧
    step (idle.withFetchWord 32 0x50000107) = .next t :=
  ⟨_, ⟨idle_inv.pins, idle_inv.status, idle_inv.traceStatus, idle_inv.samples, idle_inv.result⟩, rfl⟩
theorem witness_StepRunsDecodedOperation : (idle.withFetchWord 32 0x60000000).halt = false ∧
    decode (idle.withFetchWord 32 0x60000000).commands = .ok (.cduty, []) := by decide
theorem witness_StepWaitsOrRefuses : idle.halt = false ∧ idle.commands = [] ∧
    (idle.withFetchWord 32 0).commands ≠ [] ∧ decode (idle.withFetchWord 32 0).commands = .error .reservedOpcode := by
  decide
theorem witness_DecodeAfterEncode : (Instr.time 63 63).wf = true := by decide
theorem witness_EncodeAfterDecode : decode [0x20100000, 0x81000000, 0x60000000] = .ok (.shout [0x81], [0x60000000]) := by
  decide
theorem witness_RawListWordKeepsValidity : rawValid [1, 1, 1, 1, 1, 1, 1, 1] = true := by decide
theorem witness_HeaderWordFitsItsRow : decode [0x8000027E] = .ok (.pwmd 638, []) := by decide

end Sys2Proof.Tests
end

section
/-! PROOFS. The order of bits on the wire and of patterns in the chain (20_memory R53, R54): what the chain samples
while a script is performed, and the chain after a shift-out stage by stage. -/

namespace Sys2Proof.Machine

/-! ## What the chain samples -/

theorem sampledBits_append (s : State) (a b : PinScript) :
    sampledBits s (a ++ b) = sampledBits s a ++ sampledBits (s.runScript a) b := by
  induction a generalizing s with
  | nil => rfl
  | cons w ws ih => simp [sampledBits, ih]

/-- Begun with the shift clock low, `ShiftBit(b)` has one rising edge, at which `DATA` is `b` (41 R145). -/
theorem sampledBits_shiftBit (s : State) (b : Bool) (h : s.shcp = false) : sampledBits s (shiftBit b) = [b] := by
  simp [shiftBit, sampledBits, h]

theorem sampledBits_shiftBits (s : State) (bs : List Bool) (h : s.shcp = false) :
    sampledBits s (bs.flatMap shiftBit) = bs := by
  induction bs generalizing s with
  | nil => rfl
  | cons b bs ih =>
    have hlow : (s.runScript (shiftBit b)).shcp = false := by rw [State.runScript_shiftBit s b h]
    rw [List.flatMap_cons, sampledBits_append, sampledBits_shiftBit s b h, ih _ hlow, List.singleton_append]

/-- The latch clock samples nothing (41 R144). -/
theorem sampledBits_latchPulse (s : State) : sampledBits s latchPulse = [] := by
  simp [latchPulse, sampledBits]

theorem sampledBits_shiftPattern (s : State) (p : Pattern) (h : s.shcp = false) :
    sampledBits s (shiftPattern p) = wireBits [p] := by
  rw [shiftPattern_eq, sampledBits_shiftBits s _ h]

/-- The chain samples exactly the wire bits of the patterns (30_encoding R84). -/
theorem sampledBits_shoutScript (s : State) (ps : List Pattern) (h : s.shcp = false) :
    sampledBits s (shoutScript ps) = wireBits ps := by
  rw [shoutScript_eq, sampledBits_append, sampledBits_shiftBits s _ h, sampledBits_latchPulse, List.append_nil]

/-! ## The wire bits -/

theorem wireBits_append (ps qs : List Pattern) : wireBits (ps ++ qs) = wireBits ps ++ wireBits qs :=
  List.flatMap_append

/-- The wire bits of one pattern are its elements from 7 down to 0 (20_memory R53). -/
theorem wireBits_singleton (p : Pattern) : wireBits [p] = (List.range 8).map fun i => p.getLsbD (7 - i) := rfl

/-! ## The chain, stage by stage -/

/-- The last pattern shifted in fills stages 0 to 7, and what was there before has moved up by 8 (41 R146). -/
theorem chainAfter_concat_getLsbD (sr : Chain) (ps : List Pattern) (p : Pattern) (j : Nat) (hj : j < 24) :
    (chainAfter sr (ps ++ [p])).getLsbD j = if j < 8 then p.getLsbD j else (chainAfter sr ps).getLsbD (j - 8) := by
  have hlow : j - 8 < 24 := by omega
  simp only [chainAfter, List.foldl_append, List.foldl_cons, List.foldl_nil, BitVec.getLsbD_ofNat, hj, hlow,
    decide_true, Bool.true_and]
  rw [Nat.mul_comm, Nat.testBit_two_pow_mul_add (i := 8) _ p.isLt, BitVec.testBit_toNat]

theorem chainAfter_concat_low (sr : Chain) (ps : List Pattern) (p : Pattern) (i : Nat) (hi : i < 8) :
    (chainAfter sr (ps ++ [p])).getLsbD i = p.getLsbD i := by
  rw [chainAfter_concat_getLsbD sr ps p i (by omega), if_pos hi]

theorem chainAfter_concat_high (sr : Chain) (ps : List Pattern) (p : Pattern) (j : Nat) (hj : j < 16) :
    (chainAfter sr (ps ++ [p])).getLsbD (8 + j) = (chainAfter sr ps).getLsbD j := by
  rw [chainAfter_concat_getLsbD sr ps p (8 + j) (by omega), if_neg (by omega), Nat.add_sub_cancel_left]

/-- After three patterns the first is in the last eight stages and the third in the first eight (20_memory R54). -/
theorem chainAfter_three (sr : Chain) (p0 p1 p2 : Pattern) (i : Nat) (hi : i < 8) :
    (chainAfter sr [p0, p1, p2]).getLsbD (16 + i) = p0.getLsbD i ∧
    (chainAfter sr [p0, p1, p2]).getLsbD (8 + i) = p1.getLsbD i ∧
    (chainAfter sr [p0, p1, p2]).getLsbD i = p2.getLsbD i := by
  refine ⟨?_, ?_, chainAfter_concat_low sr [p0, p1] p2 i hi⟩
  · calc (chainAfter sr [p0, p1, p2]).getLsbD (16 + i)
        = (chainAfter sr [p0, p1, p2]).getLsbD (8 + (8 + i)) := by rw [← Nat.add_assoc]
      _ = (chainAfter sr [p0, p1]).getLsbD (8 + i) := chainAfter_concat_high sr [p0, p1] p2 (8 + i) (by omega)
      _ = (chainAfter sr [p0]).getLsbD i := chainAfter_concat_high sr [p0] p1 i (by omega)
      _ = p0.getLsbD i := chainAfter_concat_low sr [] p0 i hi
  · calc (chainAfter sr [p0, p1, p2]).getLsbD (8 + i)
        = (chainAfter sr [p0, p1]).getLsbD i := chainAfter_concat_high sr [p0, p1] p2 i (by omega)
      _ = p1.getLsbD i := chainAfter_concat_low sr [p0] p1 i hi

/-! ## The operation -/

/-- `SHOUT` issued with `HALT = 0` and both clock pins low completes in the end state of 41 R151. -/
theorem exec_shout_of_idle (s : State) (ps : List Pattern) (hh : s.halt = false) (hp : s.pinsIdle) :
    exec (.shout ps) s = .next (s.afterShout ps) := by
  rw [exec, execShout, issue_running s _ hh]
  exact congrArg Host.Outcome.next (State.shiftOut_eq { s with result := none } ps hp rfl)

/-! ## The obligations -/

/-- Settles O13: the chain samples the wire bits of the pattern, which are its elements from 7 down. -/
theorem patternSentMostSignificantFirst : Obligations.PatternSentMostSignificantFirst := by
  intro s p h
  rw [sampledBits_shiftPattern s p h, wireBits_singleton]
  refine ⟨by simp, fun i hi => ?_⟩
  rw [List.getElem?_map, List.getElem?_range hi, Option.map_some]

/-- Settles O17: the stages from the end state of `SHOUT`, the order from the wire bits, which are those of the
three patterns one after another. -/
theorem framePatternOrder : Obligations.FramePatternOrder := by
  intro s p0 p1 p2 hh hp
  refine ⟨⟨_, exec_shout_of_idle s _ hh hp, chainAfter_three s.sr p0 p1 p2⟩, ?_⟩
  obtain ⟨hshcp, -⟩ := hp
  rw [sampledBits_shoutScript s _ hshcp, sampledBits_shiftPattern s p0 hshcp, sampledBits_shiftPattern s p1 hshcp,
    sampledBits_shiftPattern s p2 hshcp, ← wireBits_append, ← wireBits_append]
  rfl

end Sys2Proof.Machine
end

section
/-! PROOFS. A frame on the wire (30_encoding R84): which element of which pattern is bit `t` in time order, and the
stage of the chain in which a bit shifted in ends. -/

namespace Sys2Proof.Machine

/-! ## The wire bits by place -/

theorem wireBits_cons (p : Pattern) (ps : List Pattern) : wireBits (p :: ps) = wireBits [p] ++ wireBits ps :=
  wireBits_append [p] ps

theorem length_wireBits (ps : List Pattern) : (wireBits ps).length = 8 * ps.length := by
  induction ps with
  | nil => rfl
  | cons p ps ih =>
    rw [wireBits_cons, List.length_append, ih, wireBits_singleton, List.length_map, List.length_range,
      List.length_cons]
    omega

/-- Bit `t` in time order is `P_k[7 - (t mod 8)]` with `k = t div 8` (30_encoding R84); past the last pattern both
sides are `none`. -/
theorem getElem?_wireBits (ps : List Pattern) (t : Nat) :
    (wireBits ps)[t]? = (ps[t / 8]?).map fun p => p.getLsbD (7 - t % 8) := by
  induction ps generalizing t with
  | nil => rfl
  | cons p ps ih =>
    have hlen : (wireBits [p]).length = 8 := length_wireBits [p]
    rw [wireBits_cons]
    rcases Nat.lt_or_ge t 8 with hlt | hge
    · rw [List.getElem?_append_left (hlen ▸ hlt), wireBits_singleton, List.getElem?_map, List.getElem?_range hlt,
        Nat.div_eq_of_lt hlt, Nat.mod_eq_of_lt hlt]
      rfl
    · have hdiv : t / 8 = (t - 8) / 8 + 1 := by omega
      have hmod : t % 8 = (t - 8) % 8 := by omega
      rw [List.getElem?_append_right (hlen ▸ hge), hlen, ih, hdiv, hmod, List.getElem?_cons_succ]

/-! ## The stage a bit ends in -/

theorem shiftInBits_concat (start : Nat) (bs : List Bool) (b : Bool) :
    shiftInBits start (bs ++ [b]) = 2 * shiftInBits start bs + b.toNat :=
  List.foldl_append

/-- Each bit shifted in takes place 0 and moves the earlier ones up by one, so bit `k` of `n` ends in place
`n - 1 - k` (41 R142). -/
theorem getElem?_eq_testBit_shiftInBits (start : Nat) (bs : List Bool) (k : Nat) (hk : k < bs.length) :
    bs[k]? = some ((shiftInBits start bs).testBit (bs.length - 1 - k)) := by
  induction bs using List.reverseRecOn with
  | nil => exact absurd hk (Nat.not_lt_zero k)
  | append_singleton bs b ih =>
    rw [List.length_append, List.length_singleton] at hk
    rw [shiftInBits_concat, List.length_append, List.length_singleton, Nat.add_sub_cancel, ← Nat.bit_val]
    rcases Nat.lt_succ_iff_lt_or_eq.mp hk with hlt | rfl
    · have hplace : bs.length - k = bs.length - 1 - k + 1 := by omega
      rw [List.getElem?_append_left hlt, ih hlt, hplace, Nat.testBit_bit_succ]
    · rw [List.getElem?_concat_length, Nat.sub_self, Nat.testBit_bit_zero]

/-- A wire bit that has not been moved past the last stage ends in stage `8N - 1 - k` (41 R151). -/
theorem getElem?_wireBits_eq_chainAfter (sr : Chain) (ps : List Pattern) (k : Nat) (hk : k < 8 * ps.length)
    (hstage : 8 * ps.length - 1 - k < 24) :
    (wireBits ps)[k]? = some ((chainAfter sr ps).getLsbD (8 * ps.length - 1 - k)) := by
  rw [getElem?_eq_testBit_shiftInBits sr.toNat (wireBits ps) k (by rwa [length_wireBits]), length_wireBits,
    shiftInBits_wireBits, chainAfter, BitVec.getLsbD_ofNat, decide_eq_true hstage, Bool.true_and]

/-! ## The obligation -/

/-- Settles O14: what the chain samples is the wire bits, so their places give the bits in time order, the script
of `SHOUT` the pin writes, and the stages of the chain after three patterns where they end. -/
theorem frameOnTheWire : Obligations.FrameOnTheWire := by
  intro s ps hp
  have hbits : sampledBits s (shoutScript ps) = wireBits ps := sampledBits_shoutScript s ps hp.1
  rw [hbits]
  refine ⟨length_wireBits ps, fun t _ => getElem?_wireBits ps t, shoutScript_eq ps, fun hlen hh => ?_⟩
  refine ⟨_, exec_shout_of_idle s ps hh hp, fun k hk => ?_⟩
  have hstage := getElem?_wireBits_eq_chainAfter s.sr ps k (by omega) (by omega)
  rwa [hlen] at hstage

end Sys2Proof.Machine
end

section
/-! PROOFS. The Segment Encoder's operations (spec 40): what an encoder operation does by what `encode` answers, the
bits of an encoding, and the command word of a raw list. -/

namespace Sys2Proof.Machine

/-! ## What `encode` answers for a raw list -/

/-- A valid raw list is its own pattern, whatever the extra bit (40 R121, R126). -/
theorem encodeSymbol_raw_of_valid (x : Bool) {l : List Nat} (h : rawValid l = true) :
    encodeSymbol x (.raw l) = .ok (rawPattern l) :=
  if_pos h

/-- A malformed raw list is fatal, whatever the extra bit (40 R126). -/
theorem encodeSymbol_raw_of_malformed (x : Bool) {l : List Nat} (h : l.length ≠ 8 ∨ ∃ e ∈ l, e ≠ 0 ∧ e ≠ 1) :
    encodeSymbol x (.raw l) = .raise .invalidPattern := by
  have hinvalid : rawValid l = false := (rawValid_false_iff l).2 h
  simp [encodeSymbol, hinvalid]

/-! ## The operations -/

/-- An encoder operation issued with `HALT = 0` hands its symbol's encoding back (40 R120). -/
theorem exec_encoderInstr (a : Assignment) {s : State} (hh : s.halt = false) :
    exec (encoderInstr a) s = giveEncoded a.extra a.symbol { s with result := none } := by
  obtain ⟨x, d | _ | l⟩ := a
  · exact issue_running s (giveEncoded x (.digit d)) hh
  · exact issue_running s (giveEncoded x .blank) hh
  · exact issue_running s (giveEncoded x (.raw l)) hh

theorem exec_encoderInstr_of_ok {a : Assignment} {p : Pattern} {s : State} (hh : s.halt = false)
    (h : encodeSymbol a.extra a.symbol = .ok p) :
    exec (encoderInstr a) s = .next { s with result := some (.pattern p) } := by
  rw [exec_encoderInstr a hh, giveEncoded, h]
  rfl

theorem exec_encoderInstr_of_raise {a : Assignment} {e : FatalError} {s : State} (hh : s.halt = false)
    (h : encodeSymbol a.extra a.symbol = .raise e) :
    exec (encoderInstr a) s = .next (s.afterFault e.code) := by
  rw [exec_encoderInstr a hh, giveEncoded, h]
  rfl

theorem exec_encd (x : Bool) (d : Fin 10) {s : State} (hh : s.halt = false) :
    exec (.encd x d.val) s = .next { s with result := some (.pattern (prependExtra x (memRead d))) } :=
  exec_encoderInstr_of_ok (a := ⟨x, .digit d.val⟩) hh (encodeSymbol_digit x d)

theorem exec_encb (x : Bool) {s : State} (hh : s.halt = false) :
    exec (.encb x) s = .next { s with result := some (.pattern (prependExtra x 0)) } :=
  exec_encoderInstr_of_ok (a := ⟨x, .blank⟩) hh rfl

theorem exec_encr_of_valid (x : Bool) {l : List Nat} (hl : rawValid l = true) {s : State} (hh : s.halt = false) :
    exec (.encr x l) s = .next { s with result := some (.pattern (rawPattern l)) } :=
  exec_encoderInstr_of_ok (a := ⟨x, .raw l⟩) hh (encodeSymbol_raw_of_valid x hl)

theorem exec_encr_of_malformed (x : Bool) {l : List Nat} (hl : l.length ≠ 8 ∨ ∃ e ∈ l, e ≠ 0 ∧ e ≠ 1) {s : State}
    (hh : s.halt = false) : exec (.encr x l) s = .next (s.afterFault 1) :=
  exec_encoderInstr_of_raise (a := ⟨x, .raw l⟩) hh (encodeSymbol_raw_of_malformed x hl)

/-- `ENCR` ignores its extra bit, in every state (40 R121). -/
theorem exec_encr_extra (x y : Bool) (l : List Nat) (s : State) : exec (.encr x l) s = exec (.encr y l) s := rfl

/-! ## The bits of the blank pattern -/

/-- The word of one bit holds that bit as element 0 and nothing else. -/
theorem getLsbD_ofNat_toNat (x : Bool) (k : Nat) :
    (BitVec.ofNat 8 x.toNat : Pattern).getLsbD k = (decide (k = 0) && x) := by
  rw [BitVec.getLsbD_ofNat, Nat.testBit_bool_toNat]
  cases k <;> simp

/-! ## The command words -/

/-- The word of `ENCB` as a number: `ENC`, kind 01 (30_encoding R86; 40 R125). -/
theorem encWord_blank (x : Bool) : encWord x .blank = BitVec.ofNat 32 (0x14000000 + x.toNat * 0x02000000) := by
  cases x <;> rfl

/-- The fields of an `ENCR` word, for every list: the length saturates and the first eight elements are packed
(30_encoding R86, R87). -/
theorem encWord_raw_fields (x : Bool) (l : List Nat) :
    field (encWord x (.raw l)) 31 28 = 1 ∧ field (encWord x (.raw l)) 27 26 = 2 ∧
    field (encWord x (.raw l)) 25 25 = x.toNat ∧ field (encWord x (.raw l)) 24 21 = min l.length 15 ∧
    field (encWord x (.raw l)) 15 0 = packElements (l.take 8) := by
  have hx : x.toNat ≤ 1 := Bool.toNat_le x
  have hlen : min l.length 15 ≤ 15 := Nat.min_le_right _ _
  have hpack : packElements (l.take 8) < 65536 := packElements_take_lt l
  simp only [encWord, encodeSymbolBits, field, BitVec.toNat_ofNat]
  refine ⟨?_, ?_, ?_, ?_, ?_⟩ <;> omega

/-- Element `i` of the packed elements of an `ENCR` word is element `i` of the list, saturated at 3
(30_encoding R87). -/
theorem encWord_raw_element (x : Bool) (l : List Nat) (i : Nat) (hi : i < 8) :
    field (encWord x (.raw l)) 15 0 / 4 ^ i % 4 = (l[i]?.map fun e => min e 3).getD 0 := by
  obtain ⟨-, -, -, -, hpacked⟩ := encWord_raw_fields x l
  rw [hpacked, packElements_elem, List.getElem?_take_of_lt hi]

/-! ## The obligations -/

/-- Settles O4: the two outcomes by the validity of the list, and the word by its fields. -/
theorem encrPassesValidListElseFaults : Obligations.EncrPassesValidListElseFaults := by
  intro s x l hh
  refine ⟨fun hvalid => ?_, fun hbad => exec_encr_of_malformed x hbad hh, encWord x (.raw l), rfl, ?_⟩
  · have hl : rawValid l = true := (rawValid_iff l).2 hvalid
    exact ⟨rawPattern l, exec_encr_of_valid x hl hh, rawPattern_bits l hl⟩
  · obtain ⟨hop, hkind, hextra, hlen, -⟩ := encWord_raw_fields x l
    exact ⟨hop, hkind, hextra, hlen, encWord_raw_element x l⟩

/-- Settles O5: a digit and blank give a row, chosen before the extra bit, with that bit below it; a raw list gives
its own pattern, in which the extra bit has no part. -/
theorem extraBitIndependentOfSymbol : Obligations.ExtraBitIndependentOfSymbol := by
  intro s hh
  refine ⟨fun d => ⟨memRead d, fun x => ?_⟩, ⟨0, fun x => ?_⟩, fun l => exec_encr_extra true false l s,
    fun x l hlen hbits => ?_⟩
  · obtain ⟨hextra, hrow, -⟩ := prependExtra_bits x (memRead d)
    exact ⟨_, exec_encd x d hh, hextra, hrow⟩
  · obtain ⟨hextra, hrow, -⟩ := prependExtra_bits x 0
    exact ⟨_, exec_encb x hh, hextra, hrow⟩
  · have hl : rawValid l = true := (rawValid_iff l).2 ⟨hlen, hbits⟩
    exact ⟨_, exec_encr_of_valid x hl hh, List.head?_eq_getElem?.trans (rawPattern_bits l hl 0 (by decide))⟩

/-- Settles O3: the pattern of blank is the extra bit alone, and so is its command word below the kind. -/
theorem encbGivesExtraBitAlone : Obligations.EncbGivesExtraBitAlone := by
  intro s x hh
  refine ⟨?_, fun k hk => ?_, ?_, congrArg (fun w => [w]) (encWord_blank x)⟩
  · rw [exec_encb x hh, prependExtra_blank]
  · rw [getLsbD_ofNat_toNat, decide_eq_false (Nat.ne_of_gt hk), Bool.false_and]
  · rw [getLsbD_ofNat_toNat, decide_eq_true rfl, Bool.true_and]

/-- Settles O6: a digit's pattern has the ROM's row above the extra bit, and a malformed raw list is fatal. -/
theorem encoderTableAndMalformedRaw : Obligations.EncoderTableAndMalformedRaw := by
  refine ⟨fun d x => ?_, fun x l hbad => encodeSymbol_raw_of_malformed x hbad⟩
  obtain ⟨hextra, hrow, -⟩ := prependExtra_bits x (memRead d)
  exact ⟨_, encodeSymbol_digit x d, hextra, hrow⟩

end Sys2Proof.Machine
end

section
/-! PROOFS. One pin write, and the driver's two clock pulses (spec 41): the level of every pin after a write, the
chain's reaction to it, and what a shifted bit and a latch pulse leave. -/

namespace Sys2Proof.Machine

/-! ## One pin write -/

theorem State.pinWrite_level_same (s : State) (p : Pin) (b : Bool) : (s.pinWrite p b).level p = b := by
  cases p <;> simp

theorem State.pinWrite_level_of_ne (s : State) {p q : Pin} (b : Bool) (h : q ≠ p) :
    (s.pinWrite p b).level q = s.level q := by
  cases p <;> cases q <;> simp at h ⊢

/-- Without a rising edge of a clock the chain does not react: the write sets the pin and is traced (41 R144). -/
theorem State.pinWrite_of_no_rising_edge (s : State) {p : Pin} {b : Bool}
    (h : p = .data ∨ s.level p = true ∨ b = false) :
    s.pinWrite p b = (s.setLevel p b).record (.pin p b) := by
  rcases h with rfl | hhigh | rfl
  · simp [State.pinWrite]
  · simp [State.pinWrite, hhigh]
  · simp [State.pinWrite]

/-! ## The latch pulse -/

/-- `LatchPulse()` begun with the latch clock low: one latch, and the clock low again (41 R147). -/
theorem State.runScript_latchPulse (s : State) (h : s.stcp = false) :
    s.runScript latchPulse = { s with
      stcp := false
      out := s.sr
      trace := s.trace ++ pinEntries latchPulse } := by
  simp only [latchPulse, State.runScript_cons, State.runScript_nil]
  rw [State.pinWrite_stcp_rising s h, State.pinWrite_stcp_low]
  simp [pinEntries]

/-! ## The obligations -/

/-- Settles O8: the chain's three clauses are a rising edge of the shift clock, one of the latch clock, and a write
without a rising edge; the rest is the frame of a pin write. -/
theorem pinWriteReactsToRisingEdges : Obligations.PinWriteReactsToRisingEdges := by
  intro s p b
  refine ⟨s.pinWrite_level_same p b, fun q hq => s.pinWrite_level_of_ne b hq, s.pinWrite_trace p b, ?shift, ?latch,
    ?others, s.pinWrite_pwmDuty p b, s.pinWrite_pwmFreq p b, s.pinWrite_halt p b, s.pinWrite_cause p b,
    s.pinWrite_result p b, s.pinWrite_commands p b, s.pinWrite_sensor p b, s.pinWrite_sensorReads p b⟩
  case shift =>
    rintro ⟨rfl, hlow, rfl⟩
    rw [s.pinWrite_shcp_rising hlow]
    exact ⟨rfl, rfl⟩
  case latch =>
    rintro ⟨rfl, hlow, rfl⟩
    rw [s.pinWrite_stcp_rising hlow]
    exact ⟨rfl, rfl⟩
  case others =>
    intro hquiet
    rw [s.pinWrite_of_no_rising_edge hquiet]
    exact ⟨s.setLevel_sr p b, s.setLevel_out p b⟩

/-- Settles O10: the end state of `ShiftBit(b)`, in which the shift clock is low as it was. -/
theorem shiftBitIsOneShift : Obligations.ShiftBitIsOneShift := by
  refine fun s b => ⟨rfl, fun hlow => ?_⟩
  rw [s.runScript_shiftBit b hlow, State.shift, hlow]
  rfl

/-- Settles O11: the end state of `LatchPulse()`, in which the latch clock is low as it was. -/
theorem latchPulseIsOneLatch : Obligations.LatchPulseIsOneLatch := by
  refine ⟨rfl, fun s hlow => ?_⟩
  rw [s.runScript_latchPulse hlow, State.latch, hlow]
  rfl

end Sys2Proof.Machine
end

section
/-! PROOFS. The Brightness Controller (spec 42): the end state of `CDUTY` and the duty on its result port, and the
guard on the average with the branch of the formula above it. -/

namespace Sys2Proof.Machine

/-! ## The operation -/

/-- `CDUTY` issued with `HALT = 0` completes in the end state of 42 R177. -/
theorem exec_cduty {s : State} (hh : s.halt = false) : exec .cduty s = .next s.afterCduty := by
  rw [exec, execCduty, issue_running s _ hh, State.sumSamples_eq, State.nextSamples_clearResult]
  rfl

theorem State.afterCduty_result (s : State) :
    s.afterCduty.result = some (.duty (BitVec.ofInt 10 (dutyOfSum (s.nextSamples 100).sum))) := rfl

/-- The duty on the result port is in `1..1022` (30_encoding R95; 42 R175). -/
theorem ofInt_dutyOfSum_bounds (sum : Nat) :
    1 ≤ (BitVec.ofInt 10 (dutyOfSum sum)).toNat ∧ (BitVec.ofInt 10 (dutyOfSum sum)).toNat ≤ 1022 := by
  have hduty := dutyOfSum_bounds sum
  have hport := ofInt_dutyOfSum sum
  omega

/-! ## The guard on the average -/

/-- An average is below a bound when the sum of the 100 samples is below 100 times the bound (42 R172). -/
theorem average_lt_iff (sum : Nat) (bound : Rat) : average sum < bound ↔ (sum : Rat) < bound * 100 :=
  div_lt_iff₀ (by norm_num [nSamples])

/-- `avg < AVG_MIN` is `S < 1500` (42 R173). -/
theorem average_lt_avgMin_iff (sum : Nat) : average sum < avgMin ↔ sum < 1500 := by
  have hbound : avgMin * 100 = ((1500 : Nat) : Rat) := by norm_num [avgMin]
  rw [average_lt_iff, hbound, Nat.cast_lt]

theorem avgMin_le_average {sum : Nat} (h : 1500 ≤ sum) : avgMin ≤ average sum :=
  not_lt.1 fun hlow => Nat.not_lt.2 h ((average_lt_avgMin_iff sum).1 hlow)

theorem dutyOfSum_of_lt {sum : Nat} (h : sum < 1500) : dutyOfSum sum = dutyMin :=
  if_pos ((average_lt_avgMin_iff sum).2 h)

theorem dutyOfSum_of_ge {sum : Nat} (h : 1500 ≤ sum) : dutyOfSum sum = max dutyMin (min dutyMax (rawDuty sum)) :=
  if_neg (not_lt.2 (avgMin_le_average h))

/-- `AVG_MIN` lies above the singularity of the formula (42 R173, R174). -/
theorem calOffset_lt_avgMin : calOffset < avgMin := by norm_num [calOffset, avgMin]

theorem calOffset_lt_average {sum : Nat} (h : 1500 ≤ sum) : calOffset < average sum :=
  calOffset_lt_avgMin.trans_le (avgMin_le_average h)

/-! ## The obligations -/

/-- Settles O33: both states complete in `afterCduty`, whose result is the duty of the sum, in its range. -/
theorem cdutyDependsOnSampleSumOnly : Obligations.CdutyDependsOnSampleSumOnly := by
  intro s t hs ht hsum
  have hresult : t.afterCduty.result = some (.duty (BitVec.ofInt 10 (dutyOfSum (s.nextSamples 100).sum))) := by
    rw [State.afterCduty_result, hsum]
  exact ⟨_, _, _, exec_cduty hs, exec_cduty ht, s.afterCduty_result, hresult, ofInt_dutyOfSum_bounds _⟩

/-- Settles O34: the guard is `S < 1500`, each side of it has its branch, and the offset lies below the guard. -/
theorem lowAverageGivesMinimumDuty : Obligations.LowAverageGivesMinimumDuty :=
  ⟨average_lt_avgMin_iff, fun _ hlow => dutyOfSum_of_lt hlow, rfl,
    fun _ hge => ⟨dutyOfSum_of_ge hge, calOffset_lt_average hge⟩⟩

end Sys2Proof.Machine
end

section
/-! PROOFS. Digit Assignment (spec 43): what an operation that shifts patterns out does by what its checks answer, the
digits of a 12-hour time, and `DISP` and `TIME` by their hour-tens digit. -/

namespace Sys2Proof.Machine

/-! ## An operation that shifts patterns out is decided by its checks -/

theorem exec_of_shiftedPatterns {i : Instr} {c : Checked (List Pattern)} (h : shiftedPatterns i = some c)
    (s : State) : exec i s = issue s fun t => c.perform t t.shiftOut := by
  cases i with
  | shout | frame | disp | time => cases h; rfl
  | encd | encb | encr | cduty | pwmf | pwmd => nomatch h

/-- Two operations whose checks answer the same patterns are the same operation, also in the halted state. -/
theorem exec_congr_of_shiftedPatterns {i j : Instr} {c : Checked (List Pattern)} {s : State}
    (hi : shiftedPatterns i = some c) (hj : shiftedPatterns j = some c) : exec i s = exec j s :=
  (exec_of_shiftedPatterns hi s).trans (exec_of_shiftedPatterns hj s).symm

theorem exec_of_shiftedPatterns_ok {i : Instr} {ps : List Pattern} (h : shiftedPatterns i = some (.ok ps))
    {s : State} (hh : s.halt = false) : exec i s = .next (State.shiftOut { s with result := none } ps) := by
  rw [exec_of_shiftedPatterns h, issue_running s _ hh]
  rfl

/-- A fatal error of the checks is raised before any pin write (60 R225). -/
theorem exec_of_shiftedPatterns_raise {i : Instr} {e : FatalError} (h : shiftedPatterns i = some (.raise e))
    {s : State} (hh : s.halt = false) : exec i s = .next (s.afterFault e.code) := by
  rw [exec_of_shiftedPatterns h, issue_running s _ hh]
  rfl

theorem State.shiftOut_halt (s : State) (ps : List Pattern) : (s.shiftOut ps).halt = s.halt := by
  obtain ⟨-, -, hhalt, -⟩ := s.runScript_frame (shoutScript ps)
  exact hhalt

/-! ## The checks of `DISP` and `TIME` by the hour-tens digit -/

theorem encodeDigits_of_bad_hourTens {ht : Nat} (h0 : ht ≠ 0) (h1 : ht ≠ 1) (hu mt mu : Nat) :
    encodeDigits ht hu mt mu = .raise .invalidHourTens := by
  rw [encodeDigits, hourTensBit_other h0 h1, Checked.andThen]

/-- The hour-tens check of `TIME` comes before its domain check (43 R203). -/
theorem encodeTime_of_bad_hourTens {h : Nat} (h0 : h / 10 ≠ 0) (h1 : h / 10 ≠ 1) (m : Nat) :
    encodeTime h m = .raise .invalidHourTens := by
  rw [encodeTime, hourTensBit_other h0 h1, Checked.andThen]

theorem encodeDigits_of_digits (x : Bool) (hu mt mu : Fin 10) :
    encodeDigits x.toNat hu.val mt.val mu.val =
      .ok [prependExtra x (memRead hu), prependExtra true (memRead mt), prependExtra true (memRead mu)] :=
  (encodeDigits_frame x hu.val mt.val mu.val).trans (encodeFrame_digits x true true hu mt mu)

theorem exists_toNat_eq_hourTens {ht : Nat} (h : ht = 0 ∨ ht = 1) : ∃ x : Bool, x.toNat = ht := by
  rcases h with rfl | rfl
  · exact ⟨false, rfl⟩
  · exact ⟨true, rfl⟩

/-! ## The operations -/

/-- `DISP` with another hour-tens digit raises, whatever its other digits are (43 R204). -/
theorem exec_disp_of_bad_hourTens {ht : Nat} (h0 : ht ≠ 0) (h1 : ht ≠ 1) (hu mt mu : Nat) {s : State}
    (hh : s.halt = false) : exec (.disp ht hu mt mu) s = .next (s.afterFault 2) :=
  exec_of_shiftedPatterns_raise (i := .disp ht hu mt mu)
    (congrArg some (encodeDigits_of_bad_hourTens h0 h1 hu mt mu)) hh

/-- `TIME` with another hour-tens digit raises, whatever its minute is (43 R204). -/
theorem exec_time_of_bad_hourTens {h : Nat} (h0 : h / 10 ≠ 0) (h1 : h / 10 ≠ 1) (m : Nat) {s : State}
    (hh : s.halt = false) : exec (.time h m) s = .next (s.afterFault 2) :=
  exec_of_shiftedPatterns_raise (i := .time h m) (congrArg some (encodeTime_of_bad_hourTens h0 h1 m)) hh

theorem exec_disp_completes {ht : Nat} (h : ht = 0 ∨ ht = 1) (hu mt mu : Fin 10) {s : State}
    (hh : s.halt = false) : ∃ t, exec (.disp ht hu.val mt.val mu.val) s = .next t ∧ t.halt = false := by
  obtain ⟨x, rfl⟩ := exists_toNat_eq_hourTens h
  have hchecks : shiftedPatterns (.disp x.toNat hu.val mt.val mu.val) = some (.ok _) :=
    congrArg some (encodeDigits_of_digits x hu mt mu)
  exact ⟨_, exec_of_shiftedPatterns_ok hchecks hh, (State.shiftOut_halt _ _).trans hh⟩

/-- On the domain of a 12-hour time, `TIME` is `DISP` of its four digits (43 R203). -/
theorem exec_time_eq_disp {h m : Nat} (hlow : 1 ≤ h) (hhigh : h ≤ 12) (hm : m ≤ 59) (s : State) :
    exec (.time h m) s = exec (.disp (h / 10) (h % 10) (m / 10) (m % 10)) s :=
  exec_congr_of_shiftedPatterns (congrArg some (encodeTime_ok hlow hhigh hm)) rfl

/-- The ranges of the four digits of a time (43 R200). -/
theorem timeDigits_bounds {h m : Nat} (hh : h ≤ 12) (hm : m ≤ 59) :
    (h / 10 = 0 ∨ h / 10 = 1) ∧ h % 10 ≤ 9 ∧ m / 10 ≤ 5 ∧ m % 10 ≤ 9 := by omega

theorem exec_time_completes {h m : Nat} (hlow : 1 ≤ h) (hhigh : h ≤ 12) (hm : m ≤ 59) {s : State}
    (hh : s.halt = false) : ∃ t, exec (.time h m) s = .next t ∧ t.halt = false := by
  obtain ⟨hht, hhu, hmt, hmu⟩ := timeDigits_bounds hhigh hm
  rw [exec_time_eq_disp hlow hhigh hm]
  exact exec_disp_completes hht ⟨h % 10, by omega⟩ ⟨m / 10, by omega⟩ ⟨m % 10, by omega⟩ hh

/-! ## The obligations -/

/-- Settles O27: the checks of `DISP` answer what those of `FRAME` answer for the three stages, for digits out of
range as well. -/
theorem digitsAssignedToStages : Obligations.DigitsAssignedToStages := fun _ ht hu mt mu =>
  exec_congr_of_shiftedPatterns (congrArg some (encodeDigits_frame ht hu mt mu)) rfl

/-- Settles O28: the hour-tens check comes first in `DISP` and in `TIME` and raises by itself; past it, digits and
12-hour times are encoded and shifted out, which leaves `HALT`. -/
theorem hourTensValidated : Obligations.HourTensValidated := fun _ hh =>
  ⟨fun _ hu mt mu h0 h1 => exec_disp_of_bad_hourTens h0 h1 hu mt mu hh,
    fun _ m h0 h1 => exec_time_of_bad_hourTens h0 h1 m hh,
    fun _ hht hu mt mu => exec_disp_completes hht hu mt mu hh,
    fun _ _ hlow hhigh hm => exec_time_completes hlow hhigh hm hh⟩

/-- Settles O30: `TIME` is `DISP` of the four digits, and these are in their ranges. -/
theorem timeDecomposedIntoDigits : Obligations.TimeDecomposedIntoDigits := fun s _ _ hlow hhigh hm =>
  ⟨exec_time_eq_disp hlow hhigh hm s, timeDigits_bounds hhigh hm⟩

end Sys2Proof.Machine
end

section
/-! PROOFS. The fatal errors (spec 60): a frame with a malformed stage raises, the operands for which an operation
raises, and that an operation that ends halted raised the error of such operands. -/

namespace Sys2Proof.Machine

/-! ## A frame with a malformed raw list -/

theorem validate_raw_of_malformed {l : List Nat} (h : l.length ≠ 8 ∨ ∃ e ∈ l, e ≠ 0 ∧ e ≠ 1) :
    validate (.raw l) = .raise .invalidPattern := by
  have hinvalid : rawValid l = false := (rawValid_false_iff l).2 h
  simp [validate, hinvalid]

/-- A frame gives patterns only when its three stages passed the validation (41 R150). -/
theorem validate_ok_of_encodeFrame_ok {a0 a1 a2 : Assignment} {ps : List Pattern}
    (h : encodeFrame a0 a1 a2 = .ok ps) :
    validate a0.symbol = .ok () ∧ validate a1.symbol = .ok () ∧ validate a2.symbol = .ok () := by
  simp only [encodeFrame, Checked.andThen_eq_ok] at h
  obtain ⟨_, h0, _, h1, _, h2, -⟩ := h
  exact ⟨h0, h1, h2⟩

/-- A malformed stage of a frame is fatal where no stage is refused: the frame neither passes nor is refused. -/
theorem encodeFrame_of_malformed {a0 a1 a2 : Assignment} {l : List Nat}
    (hdigits : ∀ d, a0.symbol = .digit d ∨ a1.symbol = .digit d ∨ a2.symbol = .digit d → d ≤ 9)
    (hstage : a0.symbol = .raw l ∨ a1.symbol = .raw l ∨ a2.symbol = .raw l)
    (hbad : l.length ≠ 8 ∨ ∃ e ∈ l, e ≠ 0 ∧ e ≠ 1) :
    encodeFrame a0 a1 a2 = .raise .invalidPattern := by
  cases hframe : encodeFrame a0 a1 a2 with
  | ok ps =>
    obtain ⟨h0, h1, h2⟩ := validate_ok_of_encodeFrame_ok hframe
    have hraise := validate_raw_of_malformed hbad
    rcases hstage with h | h | h
    · simp [h, hraise] at h0
    · simp [h, hraise] at h1
    · simp [h, hraise] at h2
  | raise e =>
    obtain ⟨rfl, -⟩ := encodeFrame_raise hframe
    rfl
  | refuse r =>
    obtain ⟨-, d, hd, hdigit⟩ := encodeFrame_refuse hframe
    exact absurd (hdigits d hdigit) (Nat.not_le.2 hd)

theorem exec_frame_of_malformed {a0 a1 a2 : Assignment} {l : List Nat}
    (hdigits : ∀ d, a0.symbol = .digit d ∨ a1.symbol = .digit d ∨ a2.symbol = .digit d → d ≤ 9)
    (hstage : a0.symbol = .raw l ∨ a1.symbol = .raw l ∨ a2.symbol = .raw l)
    (hbad : l.length ≠ 8 ∨ ∃ e ∈ l, e ≠ 0 ∧ e ≠ 1) {s : State} (hh : s.halt = false) :
    exec (.frame a0 a1 a2) s = .next (s.afterFault 1) :=
  exec_of_shiftedPatterns_raise (i := .frame a0 a1 a2)
    (congrArg some (encodeFrame_of_malformed hdigits hstage hbad)) hh

/-! ## Who can raise -/

/-- The operands for which the spec lets an operation raise a fatal error (60 R221, R222). -/
def FatalOperands (i : Instr) : FatalError → Prop
  | .invalidPattern => ∃ l : List Nat, (l.length ≠ 8 ∨ ∃ e ∈ l, e ≠ 0 ∧ e ≠ 1) ∧
      ((∃ x, i = .encr x l) ∨ ∃ a0 a1 a2 : Assignment, i = .frame a0 a1 a2 ∧
        (a0.symbol = .raw l ∨ a1.symbol = .raw l ∨ a2.symbol = .raw l))
  | .invalidHourTens => (∃ ht hu mt mu, i = .disp ht hu mt mu ∧ 2 ≤ ht) ∨ ∃ h m, i = .time h m ∧ 2 ≤ h / 10

/-- An encoder operation raises on a raw list only, so it is `ENCR`. -/
theorem fatalOperands_of_encodedSymbol_raise {i : Instr} {x : Bool} {sym : Symbol} {e : FatalError}
    (hi : encodedSymbol i = some (x, sym)) (h : encodeSymbol x sym = .raise e) : FatalOperands i e := by
  obtain ⟨rfl, l, rfl, hl⟩ := encodeSymbol_raise h
  cases i with
  | encr y l' =>
    cases hi
    exact ⟨l, (rawValid_false_iff l).1 hl, .inl ⟨x, rfl⟩⟩
  | encd | encb | shout | frame | disp | time | cduty | pwmf | pwmd => nomatch hi

/-- Of the operations that shift patterns out, `FRAME` raises on a malformed stage, `DISP` and `TIME` on the
hour-tens digit, and `SHOUT` never. -/
theorem fatalOperands_of_shiftedPatterns_raise {i : Instr} {e : FatalError}
    (hi : shiftedPatterns i = some (.raise e)) : FatalOperands i e := by
  cases i with
  | frame a0 a1 a2 =>
    obtain ⟨rfl, l, hstage, hl⟩ := encodeFrame_raise (Option.some.inj hi)
    exact ⟨l, (rawValid_false_iff l).1 hl, .inr ⟨a0, a1, a2, rfl, hstage⟩⟩
  | disp ht hu mt mu =>
    obtain ⟨rfl, hht⟩ := encodeDigits_raise (Option.some.inj hi)
    exact .inl ⟨ht, hu, mt, mu, rfl, hht⟩
  | time h m =>
    obtain ⟨rfl, hht⟩ := encodeTime_raise (Option.some.inj hi)
    exact .inr ⟨h, m, rfl, hht⟩
  | encd | encb | encr | shout | cduty | pwmf | pwmd => nomatch hi

/-- An operation that ends halted raised a fatal error for which it has the operands: it began with `HALT = 0`, and
only `raise` sets `HALT` (60 R224). -/
theorem exec_halted {i : Instr} {s t : State} (h : exec i s = .next t) (ht : t.halt = true) :
    ∃ e, FatalOperands i e ∧ t = s.afterFault e.code := by
  obtain ⟨hh, hcases⟩ := exec_cases h
  have hrunning : s.halt ≠ true := ne_true_of_eq_false hh
  rcases hcases with ⟨_, _, _, -, -, rfl⟩ | ⟨ps, -, rfl⟩ | ⟨e, hraise, rfl⟩ | ⟨-, rfl⟩ | ⟨_, -, rfl⟩ | ⟨_, -, -, rfl⟩
  · exact absurd ht hrunning
  · exact absurd ((State.shiftOut_halt _ ps).symm.trans ht) hrunning
  · refine ⟨e, ?_, rfl⟩
    rcases hraise with ⟨x, sym, hi, hsym⟩ | hi
    · exact fatalOperands_of_encodedSymbol_raise hi hsym
    · exact fatalOperands_of_shiftedPatterns_raise hi
  · exact absurd ht hrunning
  · exact absurd ht hrunning
  · exact absurd ht hrunning

theorem FatalError.code_injective : Function.Injective FatalError.code := by
  rintro (_ | _) (_ | _) h
  · rfl
  · exact absurd h (by decide)
  · exact absurd h (by decide)
  · rfl

/-- `CAUSE` tells which error a halting operation raised (60 R220). -/
theorem fatalOperands_of_cause {i : Instr} {s t : State} {e : FatalError} (h : exec i s = .next t)
    (ht : t.halt = true) (hcause : t.cause = e.code) : FatalOperands i e := by
  obtain ⟨f, hf, rfl⟩ := exec_halted h ht
  exact FatalError.code_injective hcause ▸ hf

/-! ## The obligations -/

/-- Settles O43: `ENCR` and `FRAME` raise on a malformed list, and `CAUSE = 1` after a halt tells such a list. -/
theorem invalidPatternRaisers : Obligations.InvalidPatternRaisers :=
  ⟨fun _ x _ hh hbad => exec_encr_of_malformed x hbad hh,
    fun _ _ _ _ hh hdigits ⟨_, hstage, hbad⟩ => exec_frame_of_malformed hdigits hstage hbad hh,
    fun _ _ _ h ht hcause => fatalOperands_of_cause (e := .invalidPattern) h ht hcause⟩

/-- Settles O44: `DISP` and `TIME` raise on the hour-tens digit, and `CAUSE = 2` after a halt tells such a digit. -/
theorem invalidHourTensRaisers : Obligations.InvalidHourTensRaisers :=
  ⟨fun _ _ hu mt mu hh hht => exec_disp_of_bad_hourTens (by omega) (by omega) hu mt mu hh,
    fun _ _ m hh hht => exec_time_of_bad_hourTens (by omega) (by omega) m hh,
    fun _ _ _ h ht hcause => fatalOperands_of_cause (e := .invalidHourTens) h ht hcause⟩

end Sys2Proof.Machine
end

section
/-! PROOFS. The command words (30_encoding Part B): when a header word and its operand words spell an operation, the
decoder and the encoder in both directions, the operation map, and raw lists that saturate in their word. -/

namespace Sys2Proof
open Sys2Proof.Machine

/-! ## What a header word and its operand words spell -/

/-- The header word `w` and the operand words spell an operation: the opcode selects the format, the bits the format
does not use are zero, and the operands are the format's fields (30_encoding R86 to R94, R98). -/
inductive Spells (w : CommandWord) : List CommandWord → Instr → Prop
  | encoder {ops a} (hop : opcode w = 1) (hsym : decodeSymbol w = .ok a) : Spells w ops (encoderInstr a)
  | shout {ops ps} (hop : opcode w = 2) (hzero : field w 19 0 = 0)
      (hps : decodePatterns (field w 27 20) ops = .ok ps) : Spells w ops (.shout ps)
  | frame {w0 w1 w2 a0 a1 a2} (hop : opcode w = 3) (hzero : field w 27 0 = 0) (h0 : decodeSymbolWord w0 = .ok a0)
      (h1 : decodeSymbolWord w1 = .ok a1) (h2 : decodeSymbolWord w2 = .ok a2) : Spells w [w0, w1, w2] (.frame a0 a1 a2)
  | disp {ops} (hop : opcode w = 4) (hzero : field w 27 16 = 0) :
      Spells w ops (.disp (field w 15 12) (field w 11 8) (field w 7 4) (field w 3 0))
  | time {ops} (hop : opcode w = 5) (hhigh : field w 27 14 = 0) (hmid : field w 7 6 = 0) :
      Spells w ops (.time (field w 13 8) (field w 5 0))
  | cduty {ops} (hop : opcode w = 6) (hzero : field w 27 0 = 0) : Spells w ops .cduty
  | pwmf {ops} (hop : opcode w = 7) : Spells w ops (.pwmf (field w 27 0))
  | pwmd {ops} (hop : opcode w = 8) (hzero : field w 27 10 = 0) : Spells w ops (.pwmd (field w 9 0))

theorem decodeOperation_of_spells {w : CommandWord} {ops : List CommandWord} {i : Instr} (h : Spells w ops i) :
    decodeOperation w ops = .ok i := by
  cases h with
  | encoder hop hsym => simp [decodeOperation, hop, hsym, Except.map]
  | shout hop hzero hps => simp [decodeOperation, hop, hzero, hps, Except.map]
  | frame hop hzero h0 h1 h2 => simp [decodeOperation, hop, hzero, h0, h1, h2, bind, Except.bind, pure, Except.pure]
  | disp hop hzero => simp [decodeOperation, hop, hzero]
  | time hop hhigh hmid => simp [decodeOperation, hop, hhigh, hmid]
  | cduty hop hzero => simp [decodeOperation, hop, hzero]
  | pwmf hop => simp [decodeOperation, hop]
  | pwmd hop hzero => simp [decodeOperation, hop, hzero]

theorem except_bind_ok {α β : Type} {x : Except BadCommand α} {f : α → Except BadCommand β} {b : β}
    (h : x >>= f = .ok b) : ∃ a, x = .ok a ∧ f a = .ok b := by
  cases x with
  | error e => cases h
  | ok a => exact ⟨a, rfl, h⟩

/-- The decoder reads an operation only from words that spell it: one branch for each opcode. -/
theorem spells_of_decodeOperation {w : CommandWord} {ops : List CommandWord} {i : Instr}
    (h : decodeOperation w ops = .ok i) : Spells w ops i := by
  unfold decodeOperation at h
  split_ifs at h with h1 h2 hz h3 hz h4 hz h5 hz h6 hz h7 h8 hz
  · obtain ⟨a, ha, rfl⟩ := except_map_ok h
    exact .encoder h1 ha
  · obtain ⟨ps, hps, rfl⟩ := except_map_ok h
    exact .shout h2 (not_not.1 hz) hps
  · split at h
    · obtain ⟨a0, h0, h⟩ := except_bind_ok h
      obtain ⟨a1, h1, h⟩ := except_bind_ok h
      obtain ⟨a2, h2, h⟩ := except_bind_ok h
      cases h
      exact .frame h3 (not_not.1 hz) h0 h1 h2
    · cases h
  · cases h
    exact .disp h4 (not_not.1 hz)
  · cases h
    obtain ⟨hhigh, hmid⟩ := not_or.1 hz
    exact .time h5 (not_not.1 hhigh) (not_not.1 hmid)
  · cases h
    exact .cduty h6 (not_not.1 hz)
  · cases h
    exact .pwmf h7
  · cases h
    exact .pwmd h8 (not_not.1 hz)

/-! ## The words of a well-formed operation spell it -/

/-- The words of an operation are a header word and operand words that spell it. -/
def EncodesItself (i : Instr) : Prop := ∃ w ops, encode i = w :: ops ∧ Spells w ops i

theorem encodesItself_encoderInstr (a : Assignment) (hw : a.symbol.wf = true) : EncodesItself (encoderInstr a) := by
  obtain ⟨hsym, hop⟩ := decodeSymbol_encode 1 (by omega) a.extra a.symbol hw
  exact ⟨_, [], encode_encoderInstr a, .encoder hop hsym⟩

theorem encodesItself_shout (ps : List Pattern) (hw : ps.length ≤ 255) : EncodesItself (.shout ps) := by
  obtain ⟨hop, hcount, hzero⟩ := shout_fields ps.length hw _ (shout_word ps.length hw)
  refine ⟨_, packPatterns ps, by rw [encode], .shout hop hzero ?_⟩
  rw [hcount, decodePatterns_packPatterns]

theorem decodeSymbolWord_symWord (a : Assignment) (hw : a.symbol.wf = true) :
    decodeSymbolWord (symWord a) = .ok a := by
  have h := decodeSymbol_encode 0 (by omega) a.extra a.symbol hw
  rw [Nat.zero_mul, Nat.zero_add] at h
  obtain ⟨hsym, hop⟩ := h
  rw [symWord, decodeSymbolWord, if_pos hop, hsym]

theorem encodesItself_frame (a0 a1 a2 : Assignment) (h0 : a0.symbol.wf = true) (h1 : a1.symbol.wf = true)
    (h2 : a2.symbol.wf = true) : EncodesItself (.frame a0 a1 a2) :=
  ⟨_, _, by rw [encode], .frame (by decide) (by decide) (decodeSymbolWord_symWord a0 h0)
    (decodeSymbolWord_symWord a1 h1) (decodeSymbolWord_symWord a2 h2)⟩

theorem encodesItself_disp (ht hu mt mu : Nat) (h0 : ht < 16) (h1 : hu < 16) (h2 : mt < 16) (h3 : mu < 16) :
    EncodesItself (.disp ht hu mt mu) := by
  refine ⟨_, [], by rw [encode], ?_⟩
  generalize hw : BitVec.ofNat 32 _ = w
  have hnat : w.toNat = 4 * 2 ^ 28 + ht * 2 ^ 12 + hu * 2 ^ 8 + mt * 2 ^ 4 + mu := by
    rw [← hw, BitVec.toNat_ofNat]; omega
  have hop : opcode w = 4 := by simp only [opcode, field, hnat]; omega
  have hzero : field w 27 16 = 0 := by simp only [field, hnat]; omega
  have hht : field w 15 12 = ht := by simp only [field, hnat]; omega
  have hhu : field w 11 8 = hu := by simp only [field, hnat]; omega
  have hmt : field w 7 4 = mt := by simp only [field, hnat]; omega
  have hmu : field w 3 0 = mu := by simp only [field, hnat]; omega
  simpa only [hht, hhu, hmt, hmu] using Spells.disp (ops := []) hop hzero

theorem encodesItself_time (h m : Nat) (hh : h < 64) (hm : m < 64) : EncodesItself (.time h m) := by
  refine ⟨_, [], by rw [encode], ?_⟩
  generalize hw : BitVec.ofNat 32 _ = w
  have hnat : w.toNat = 5 * 2 ^ 28 + h * 2 ^ 8 + m := by rw [← hw, BitVec.toNat_ofNat]; omega
  have hop : opcode w = 5 := by simp only [opcode, field, hnat]; omega
  have hhigh : field w 27 14 = 0 := by simp only [field, hnat]; omega
  have hmid : field w 7 6 = 0 := by simp only [field, hnat]; omega
  have hhour : field w 13 8 = h := by simp only [field, hnat]; omega
  have hminute : field w 5 0 = m := by simp only [field, hnat]; omega
  simpa only [hhour, hminute] using Spells.time (ops := []) hop hhigh hmid

theorem encodesItself_pwmf (hz : Nat) (h : hz < 268435456) : EncodesItself (.pwmf hz) := by
  refine ⟨_, [], by rw [encode], ?_⟩
  generalize hw : BitVec.ofNat 32 _ = w
  have hnat : w.toNat = 7 * 2 ^ 28 + hz := by rw [← hw, BitVec.toNat_ofNat]; omega
  have hop : opcode w = 7 := by simp only [opcode, field, hnat]; omega
  have hfreq : field w 27 0 = hz := by simp only [field, hnat]; omega
  simpa only [hfreq] using Spells.pwmf (ops := []) hop

theorem encodesItself_pwmd (v : Nat) (h : v < 1024) : EncodesItself (.pwmd v) := by
  refine ⟨_, [], by rw [encode], ?_⟩
  generalize hw : BitVec.ofNat 32 _ = w
  have hnat : w.toNat = 8 * 2 ^ 28 + v := by rw [← hw, BitVec.toNat_ofNat]; omega
  have hop : opcode w = 8 := by simp only [opcode, field, hnat]; omega
  have hzero : field w 27 10 = 0 := by simp only [field, hnat]; omega
  have hduty : field w 9 0 = v := by simp only [field, hnat]; omega
  simpa only [hduty] using Spells.pwmd (ops := []) hop hzero

theorem encodesItself_of_wf {i : Instr} (hw : i.wf = true) : EncodesItself i := by
  cases i with
  | encd x d => exact encodesItself_encoderInstr ⟨x, .digit d⟩ hw
  | encb x => exact encodesItself_encoderInstr ⟨x, .blank⟩ hw
  | encr x l => exact encodesItself_encoderInstr ⟨x, .raw l⟩ hw
  | shout ps => exact encodesItself_shout ps (of_decide_eq_true hw)
  | frame a0 a1 a2 =>
    simp only [Instr.wf, Bool.and_eq_true] at hw
    obtain ⟨⟨h0, h1⟩, h2⟩ := hw
    exact encodesItself_frame a0 a1 a2 h0 h1 h2
  | disp ht hu mt mu =>
    simp only [Instr.wf, Bool.and_eq_true, decide_eq_true_eq] at hw
    obtain ⟨⟨⟨h0, h1⟩, h2⟩, h3⟩ := hw
    exact encodesItself_disp ht hu mt mu h0 h1 h2 h3
  | time h m =>
    simp only [Instr.wf, Bool.and_eq_true, decide_eq_true_eq] at hw
    obtain ⟨hh, hm⟩ := hw
    exact encodesItself_time h m hh hm
  | cduty => exact ⟨_, [], by rw [encode], .cduty (by decide) (by decide)⟩
  | pwmf hz => exact encodesItself_pwmf hz (of_decide_eq_true hw)
  | pwmd v => exact encodesItself_pwmd v (of_decide_eq_true hw)

/-- The words of a well-formed operation are as many as its header word says, for every operation
(30_encoding R99). -/
theorem encodedLength (i : Instr) : Laws.EncodedLength.Statement i := by
  cases i with
  | encd x d => exact Laws.EncodedLength.encd x d
  | encb x => exact Laws.EncodedLength.encb x
  | encr x l => exact Laws.EncodedLength.encr x l
  | shout ps => exact Laws.EncodedLength.shout ps
  | frame a0 a1 a2 => exact Laws.EncodedLength.frame a0 a1 a2
  | disp ht hu mt mu => exact Laws.EncodedLength.disp ht hu mt mu
  | time h m => exact Laws.EncodedLength.time h m
  | cduty => exact Laws.EncodedLength.cduty
  | pwmf hz => exact Laws.EncodedLength.pwmf hz
  | pwmd v => exact Laws.EncodedLength.pwmd v

theorem decode_encode_append {i : Instr} (hw : i.wf = true) (rest : List CommandWord) :
    decode (encode i ++ rest) = .ok (i, rest) := by
  obtain ⟨w, ops, henc, hspells⟩ := encodesItself_of_wf hw
  obtain ⟨w', ops', henc', hlen⟩ := encodedLength i hw
  obtain ⟨rfl, rfl⟩ := List.cons.inj (henc.symm.trans henc')
  rw [List.length_cons, commandLength, Nat.add_comm] at hlen
  rw [henc]
  exact decode_cons w ops rest i (Nat.add_left_cancel hlen) (decodeOperation_of_spells hspells)

/-! ## What is spelled is well-formed, and its words are the ones read -/

/-- Only `SHOUT` and `FRAME` have operand words (30_encoding R99). -/
theorem operands_eq_nil {w : CommandWord} {ops : List CommandWord} (h2 : opcode w ≠ 2) (h3 : opcode w ≠ 3)
    (hlen : ops.length = operandCount w) : ops = [] := by
  rw [operandCount, if_neg h2, if_neg h3] at hlen
  exact List.eq_nil_of_length_eq_zero hlen

/-- A word list whose header is given by its number. -/
theorem ofNat_cons_eq {w : CommandWord} {n : Nat} (h : n = w.toNat) (ops : List CommandWord) :
    BitVec.ofNat 32 n :: ops = w :: ops := by
  rw [h, BitVec.ofNat_toNat, BitVec.setWidth_eq]

/-- A word is its opcode and the 28 bits below it. -/
theorem toNat_eq_opcode_add (w : CommandWord) : w.toNat = opcode w * 2 ^ 28 + field w 27 0 := by
  have := w.isLt
  simp only [opcode, field]; omega

theorem decodePatterns_ok {n : Nat} {ops : List CommandWord} {ps : List Pattern}
    (h : decodePatterns n ops = .ok ps) :
    ps = (ops.flatMap unpackPatterns).take n ∧
      ((ops.flatMap unpackPatterns).drop n).all (fun p => p == 0) = true := by
  simp only [decodePatterns] at h
  split_ifs at h with hz
  cases h
  exact ⟨rfl, hz⟩

theorem length_flatMap_unpackPatterns (ops : List CommandWord) :
    (ops.flatMap unpackPatterns).length = 4 * ops.length := by
  induction ops with
  | nil => rfl
  | cons w ops ih => rw [List.flatMap_cons, List.length_append, ih, List.length_cons]; simp [unpackPatterns]; omega

/-- The patterns decoded from exactly the operand words of `N` patterns are `N`, and pack to those words. -/
theorem decodePatterns_exact {n : Nat} {ops : List CommandWord} {ps : List Pattern}
    (h : decodePatterns n ops = .ok ps) (hlen : ops.length = (n + 3) / 4) :
    ps.length = n ∧ packPatterns ps = ops := by
  obtain ⟨rfl, hz⟩ := decodePatterns_ok h
  refine ⟨?_, packPatterns_unpackPatterns ops n hlen hz⟩
  rw [List.length_take, length_flatMap_unpackPatterns]
  omega

/-- With as many operand words as its header word asks for, an operation is well-formed and has exactly these
words: every bit of them is a field of it or zero. -/
theorem wf_and_encode_of_spells {w : CommandWord} {ops : List CommandWord} {i : Instr} (h : Spells w ops i)
    (hlen : ops.length = operandCount w) : i.wf = true ∧ encode i = w :: ops := by
  have hw := w.isLt
  cases h with
  | encoder hop hsym =>
    obtain ⟨hwf, hbits, -, -⟩ := decodeSymbol_ok w _ hsym
    obtain rfl := operands_eq_nil (by omega) (by omega) hlen
    rw [hop] at hbits
    rw [wf_encoderInstr, encode_encoderInstr, encWord, ← hbits]
    exact ⟨hwf, rfl⟩
  | shout hop hzero hps =>
    rw [operandCount, if_pos hop] at hlen
    obtain ⟨hcount, hpack⟩ := decodePatterns_exact hps hlen
    have hlt : field w 27 20 < 256 := by simp only [field]; omega
    refine ⟨decide_eq_true (by omega), ?_⟩
    rw [encode, hcount, hpack, Nat.mod_eq_of_lt hlt]
    refine ofNat_cons_eq ?_ ops
    simp only [opcode, field] at *; omega
  | frame hop hzero h0 h1 h2 =>
    obtain ⟨hwf0, rfl⟩ := decodeSymbolWord_ok _ _ h0
    obtain ⟨hwf1, rfl⟩ := decodeSymbolWord_ok _ _ h1
    obtain ⟨hwf2, rfl⟩ := decodeSymbolWord_ok _ _ h2
    have hnat := toNat_eq_opcode_add w
    rw [hop, hzero, Nat.add_zero] at hnat
    rw [encode]
    exact ⟨by simp only [Instr.wf, hwf0, hwf1, hwf2]; rfl, ofNat_cons_eq hnat.symm _⟩
  | disp hop hzero =>
    obtain rfl := operands_eq_nil (by omega) (by omega) hlen
    rw [encode]
    refine ⟨by simp only [Instr.wf, Bool.and_eq_true, decide_eq_true_eq]; simp only [field]; omega, ofNat_cons_eq ?_ []⟩
    simp only [opcode, field] at *; omega
  | time hop hhigh hmid =>
    obtain rfl := operands_eq_nil (by omega) (by omega) hlen
    rw [encode]
    refine ⟨by simp only [Instr.wf, Bool.and_eq_true, decide_eq_true_eq]; simp only [field]; omega, ofNat_cons_eq ?_ []⟩
    simp only [opcode, field] at *; omega
  | cduty hop hzero =>
    obtain rfl := operands_eq_nil (by omega) (by omega) hlen
    have hnat := toNat_eq_opcode_add w
    rw [hop, hzero, Nat.add_zero] at hnat
    rw [encode]
    exact ⟨rfl, ofNat_cons_eq hnat.symm []⟩
  | pwmf hop =>
    obtain rfl := operands_eq_nil (by omega) (by omega) hlen
    have hnat := toNat_eq_opcode_add w
    have hlt : field w 27 0 < 2 ^ 28 := by simp only [field]; omega
    rw [hop] at hnat
    rw [encode, Nat.mod_eq_of_lt hlt]
    exact ⟨decide_eq_true hlt, ofNat_cons_eq hnat.symm []⟩
  | pwmd hop hzero =>
    obtain rfl := operands_eq_nil (by omega) (by omega) hlen
    rw [encode]
    refine ⟨decide_eq_true (by simp only [field]; omega), ofNat_cons_eq ?_ []⟩
    simp only [opcode, field] at *; omega

/-- What the decoder reads from a stream: a header word, exactly its operand words, and the rest. -/
theorem decode_eq_ok {ws rest : List CommandWord} {i : Instr} (h : decode ws = .ok (i, rest)) :
    ∃ w ops, ws = w :: ops ++ rest ∧ ops.length = operandCount w ∧ Spells w ops i := by
  cases ws with
  | nil => cases h
  | cons w ws =>
    obtain ⟨ops, rfl, hlen, hop⟩ := decode_ok w ws rest i h
    exact ⟨w, ops, rfl, hlen, spells_of_decodeOperation hop⟩

/-! ## The operation map -/

theorem and_fieldMask_of_field {w : CommandWord} {hi lo v : Nat} (h : field w hi lo = v) :
    w &&& fieldMask hi lo = BitVec.ofNat 32 (v * 2 ^ lo) := by
  rw [and_fieldMask, h]

/-- A mask in two parts. -/
theorem and_or_of_and {w a b x y : CommandWord} (ha : w &&& a = x) (hb : w &&& b = y) :
    w &&& (a ||| b) = x ||| y := by
  rw [BitVec.and_or_distrib_left, ha, hb]

/-- The mask of every row is a union of fields, and the format fixes each of them (30_encoding R96). -/
theorem and_headerRow_of_spells {w : CommandWord} {ops : List CommandWord} {i : Instr} (h : Spells w ops i) :
    w &&& (headerRow i).2 = (headerRow i).1 := by
  cases h with
  | encoder hop hsym =>
    rename_i a
    obtain ⟨x, sym⟩ := a
    obtain ⟨-, -, hz, hkind⟩ := decodeSymbol_ok w _ hsym
    have hop' := and_fieldMask_of_field (lo := 28) hop
    have hz' := and_fieldMask_of_field hz
    rcases hkind with ⟨d, rfl, hk, hn, he⟩ | ⟨rfl, hk, hn, hd, he⟩ | ⟨l, rfl, hk, hd⟩
    · exact and_or_of_and hop' (and_or_of_and (and_fieldMask_of_field hk) (and_or_of_and (and_fieldMask_of_field hn)
        (and_or_of_and hz' (and_fieldMask_of_field he))))
    · exact and_or_of_and hop' (and_or_of_and (and_fieldMask_of_field hk) (and_or_of_and (and_fieldMask_of_field hn)
        (and_or_of_and (and_fieldMask_of_field hd) (and_or_of_and hz' (and_fieldMask_of_field he)))))
    · exact and_or_of_and hop' (and_or_of_and (and_fieldMask_of_field hk)
        (and_or_of_and (and_fieldMask_of_field hd) hz'))
  | shout hop hzero _ => exact and_or_of_and (and_fieldMask_of_field (lo := 28) hop) (and_fieldMask_of_field hzero)
  | frame hop hzero _ _ _ =>
    exact and_or_of_and (and_fieldMask_of_field (lo := 28) hop) (and_fieldMask_of_field hzero)
  | disp hop hzero => exact and_or_of_and (and_fieldMask_of_field (lo := 28) hop) (and_fieldMask_of_field hzero)
  | time hop hhigh hmid =>
    exact and_or_of_and (and_fieldMask_of_field (lo := 28) hop)
      (and_or_of_and (and_fieldMask_of_field hhigh) (and_fieldMask_of_field hmid))
  | cduty hop hzero => exact and_or_of_and (and_fieldMask_of_field (lo := 28) hop) (and_fieldMask_of_field hzero)
  | pwmf hop => exact and_fieldMask_of_field (lo := 28) hop
  | pwmd hop hzero => exact and_or_of_and (and_fieldMask_of_field (lo := 28) hop) (and_fieldMask_of_field hzero)

/-! ## Raw lists that saturate (30_encoding R87) -/

/-- The list an `ENCR` word carries for a list: at most 15 elements, each at most 3, 0 from the ninth on. -/
def carriedList (l : List Nat) : List Nat :=
  (l.take 8).map (fun e => min e 3) ++ List.replicate (min l.length 15 - 8) 0

theorem length_carriedList (l : List Nat) : (carriedList l).length = min l.length 15 := by
  simp only [carriedList, List.length_append, List.length_map, List.length_take, List.length_replicate]
  omega

theorem carriedList_of_length_le {l : List Nat} (h : l.length ≤ 8) : carriedList l = l.map fun e => min e 3 := by
  have hzero : min l.length 15 - 8 = 0 := by omega
  rw [carriedList, hzero, List.take_of_length_le h, List.replicate_zero, List.append_nil]

theorem take_carriedList (l : List Nat) : (carriedList l).take 8 = (l.take 8).map fun e => min e 3 := by
  rcases Nat.le_total l.length 8 with h | h
  · rw [carriedList_of_length_le h, ← List.map_take]
  · exact List.take_left' (by rw [List.length_map, List.length_take, Nat.min_eq_left h])

theorem rawListWf_carriedList (l : List Nat) : rawListWf (carriedList l) = true := by
  refine (rawListWf_iff _).2 ⟨by rw [length_carriedList]; omega, fun a ha => ?_, fun a ha => ?_⟩
  · rcases List.mem_append.1 ha with hmap | hzero
    · obtain ⟨e, -, rfl⟩ := List.mem_map.1 hmap
      exact Nat.min_le_right e 3
    · rw [List.eq_of_mem_replicate hzero]; omega
  · rcases Nat.le_total l.length 8 with h | h
    · rw [List.drop_eq_nil_of_le (by rw [length_carriedList]; omega)] at ha
      exact absurd ha List.not_mem_nil
    · rw [carriedList, List.drop_left' (by rw [List.length_map, List.length_take, Nat.min_eq_left h])] at ha
      exact List.eq_of_mem_replicate ha

/-- A list and the list its word carries have the same word. -/
theorem encWord_carriedList (x : Bool) (l : List Nat) : encWord x (.raw (carriedList l)) = encWord x (.raw l) := by
  have hlen : min (min l.length 15) 15 = min l.length 15 := by omega
  simp only [encWord, encodeSymbolBits, length_carriedList, take_carriedList, packElements_saturate, hlen]

theorem rawValid_carriedList (l : List Nat) : rawValid (carriedList l) = rawValid l := by
  by_cases h8 : l.length = 8
  · rw [carriedList_of_length_le (by omega), rawValid, rawValid, List.length_map, List.all_map]
    congr 2
    funext e
    simp
  · have hlen : (carriedList l).length ≠ 8 := by rw [length_carriedList]; omega
    rw [(rawValid_false_iff l).2 (.inl h8), (rawValid_false_iff _).2 (.inl hlen)]

theorem carriedList_of_rawValid {l : List Nat} (h : rawValid l = true) : carriedList l = l := by
  obtain ⟨h8, hbits⟩ := (rawValid_iff l).1 h
  rw [carriedList_of_length_le (by omega)]
  calc l.map (fun e => min e 3) = l.map id := List.map_congr_left fun e he => by
        have := hbits e he
        simp only [id]; omega
    _ = l := l.map_id

/-! ## The obligations -/

/-- Settles O56: the words of a well-formed operation spell it and are as many as the header word says. -/
theorem decodeAfterEncode : Obligations.DecodeAfterEncode := fun _ rest hw => decode_encode_append hw rest

/-- Settles O57: the words read are a header word and its operand words that spell the operation, and those are the
words of exactly one well-formed operation. -/
theorem encodeAfterDecode : Obligations.EncodeAfterDecode := by
  intro ws rest i h
  obtain ⟨w, ops, rfl, hlen, hspells⟩ := decode_eq_ok h
  obtain ⟨hwf, henc⟩ := wf_and_encode_of_spells hspells hlen
  exact ⟨hwf, by rw [henc]⟩

/-- Settles O58: a list has the word of the list it is carried as, which is well-formed and as valid. -/
theorem rawListWordKeepsValidity : Obligations.RawListWordKeepsValidity := by
  intro x l
  refine ⟨carriedList l, ?_, rawValid_carriedList l, carriedList_of_rawValid⟩
  have h := decode_encode_append (i := .encr x (carriedList l)) (rawListWf_carriedList l) []
  rwa [List.append_nil, encode, encWord_carriedList] at h

/-- Settles O59: the decoded words spell the operation, and its format fixes every bit of the mask. -/
theorem headerWordFitsItsRow : Obligations.HeaderWordFitsItsRow := by
  intro w ws rest i h
  obtain ⟨w', ops, hws, -, hspells⟩ := decode_eq_ok h
  obtain ⟨rfl, -⟩ := List.cons.inj hws
  exact and_headerRow_of_spells hspells

/-- Settles O60: the decoder on ten literal streams. -/
theorem knownWordsDecode : Obligations.KnownWordsDecode := by
  unfold Obligations.KnownWordsDecode
  decide

end Sys2Proof
end

section
/-! PROOFS. The trace explains the state (10_state R33): performing recorded micro-steps on two states that agree on
the machine's own registers keeps them in agreement, and every operation is the micro-steps it records. -/

namespace Sys2Proof.Machine

/-! ## Agreement on the machine's registers -/

theorem State.sameCore.refl (s : State) : s.sameCore s := ⟨rfl, rfl, rfl, rfl, rfl, rfl, rfl, rfl, rfl, rfl⟩

theorem State.sameCore.trans {s t u : State} (h : s.sameCore t) (h' : t.sameCore u) : s.sameCore u := by
  obtain ⟨hdata, hshcp, hstcp, hsr, hout, hduty, hfreq, hhalt, hcause, htrace⟩ := h
  simp only [State.sameCore, hdata, hshcp, hstcp, hsr, hout, hduty, hfreq, hhalt, hcause, htrace]
  exact h'

/-- The shift stages after a pin write: a rising edge of the shift clock shifts, nothing else touches them
(41 R142, R144). -/
theorem State.pinWrite_sr (s : State) (p : Pin) (b : Bool) : (s.pinWrite p b).sr =
    if p = .shcp ∧ s.shcp = false ∧ b = true then BitVec.ofNat 24 (2 * s.sr.toNat + s.data.toNat) else s.sr := by
  cases p <;> simp only [State.pinWrite] <;> split_ifs <;> simp_all

/-- The output latches after a pin write: a rising edge of the latch clock latches, nothing else touches them
(41 R143, R144). -/
theorem State.pinWrite_out_eq (s : State) (p : Pin) (b : Bool) : (s.pinWrite p b).out =
    if p = .stcp ∧ s.stcp = false ∧ b = true then s.sr else s.out := by
  cases p <;> simp only [State.pinWrite] <;> split_ifs <;> simp_all

theorem State.sameCore_pinWrite {s t : State} (h : s.sameCore t) (p : Pin) (b : Bool) :
    (s.pinWrite p b).sameCore (t.pinWrite p b) := by
  obtain ⟨hdata, hshcp, hstcp, hsr, hout, hduty, hfreq, hhalt, hcause, htrace⟩ := h
  have hchain : (s.pinWrite p b).sr = (t.pinWrite p b).sr ∧ (s.pinWrite p b).out = (t.pinWrite p b).out := by
    simp only [State.pinWrite_sr, State.pinWrite_out_eq, hdata, hshcp, hstcp, hsr, hout, and_self]
  obtain ⟨hsr', hout'⟩ := hchain
  cases p <;> simp [State.sameCore, hdata, hshcp, hstcp, hsr', hout', hduty, hfreq, hhalt, hcause, htrace]

theorem State.sameCore_replayEntry {s t : State} (h : s.sameCore t) (e : TraceEntry) :
    (s.replayEntry e).sameCore (t.replayEntry e) := by
  cases e with
  | pin p b => exact State.sameCore_pinWrite h p b
  | sensor | pwmDuty | pwmFreq | fault =>
    obtain ⟨hdata, hshcp, hstcp, hsr, hout, hduty, hfreq, hhalt, hcause, htrace⟩ := h
    simp [State.sameCore, State.replayEntry, hdata, hshcp, hstcp, hsr, hout, hduty, hfreq, hhalt, hcause, htrace]

theorem State.sameCore_replay {s t : State} (h : s.sameCore t) (entries : List TraceEntry) :
    (s.replay entries).sameCore (t.replay entries) := by
  induction entries generalizing s t with
  | nil => exact h
  | cons e es ih => exact ih (State.sameCore_replayEntry h e)

/-! ## What recorded micro-steps do -/

/-- The entries of a script replay it (10_state R33). -/
theorem State.replay_pinEntries (s : State) (script : PinScript) : s.replay (pinEntries script) = s.runScript script :=
  List.foldl_map

/-- The entries of sensor reads do nothing but stand in the trace (42 R171). -/
theorem State.replay_sensor (s : State) (values : List Nat) :
    s.replay (values.map .sensor) = { s with trace := s.trace ++ values.map .sensor } := by
  induction values generalizing s with
  | nil => simp [State.replay]
  | cons v vs ih =>
    have h := ih (s.record (.sensor v))
    simp only [State.replay, List.map_cons, List.foldl_cons] at h ⊢
    rw [State.replayEntry, h]
    simp [State.record]

/-! ## Operations and steps -/

/-- What an operation did to the machine's registers is what some recorded micro-steps do: none for the encoder, the
pin writes of a shift-out, one for a fatal error or a PWM write, a hundred sensor reads for `CDUTY`. -/
theorem exec_sameCore_replay {i : Instr} {s t : State} (h : exec i s = .next t) :
    ∃ entries, t.sameCore (s.replay entries) := by
  have hport : State.sameCore { s with result := none } s := State.sameCore.refl s
  obtain ⟨-, hcases⟩ := exec_cases h
  rcases hcases with ⟨_, _, p, -, -, rfl⟩ | ⟨ps, -, rfl⟩ | ⟨e, -, rfl⟩ | ⟨-, rfl⟩ | ⟨hz, -, rfl⟩ | ⟨v, -, -, rfl⟩
  · exact ⟨[], State.sameCore.refl s⟩
  · refine ⟨pinEntries (shoutScript ps), ?_⟩
    rw [State.shiftOut, ← State.replay_pinEntries]
    exact State.sameCore_replay hport _
  · exact ⟨[.fault e.code], State.sameCore_replayEntry hport (.fault e.code)⟩
  · refine ⟨(s.nextSamples 100).map .sensor, ?_⟩
    rw [State.replay_sensor]
    exact State.sameCore.refl _
  · exact ⟨[.pwmFreq hz], State.sameCore_replayEntry hport (.pwmFreq hz)⟩
  · exact ⟨[.pwmDuty _], State.sameCore_replayEntry hport (.pwmDuty _)⟩

/-! ## The obligation -/

/-- Settles O50: a waiting step records nothing, and any other is an operation, for which the words taken off the
queue make no difference. -/
theorem traceExplainsEveryStep : Obligations.TraceExplainsEveryStep := by
  intro s t h
  obtain ⟨-, ⟨-, rfl⟩ | ⟨i, rest, -, hexec⟩⟩ := step_cases h
  · exact ⟨[], State.sameCore.refl t⟩
  · obtain ⟨entries, hcore⟩ := exec_sameCore_replay hexec
    have hwords : State.sameCore { s with commands := rest } s := State.sameCore.refl s
    exact ⟨entries, hcore.trans (State.sameCore_replay hwords entries)⟩

end Sys2Proof.Machine
end

section
/-! PROOFS. The machine's invariant (10_state sections 2, 5 and 6): it holds at reset, and every operation and every
step keeps it. -/

namespace Sys2Proof.Machine

/-! ## What an operation that does not fault may add to the trace -/

/-- A trace entry that leaves the invariant alone: no fault, and no sample above `ADC_MAX`. -/
def TraceEntry.Harmless : TraceEntry → Prop
  | .pin _ _ => True
  | .sensor v => v ≤ Config.adcMax
  | .pwmDuty _ => True
  | .pwmFreq _ => True
  | .fault _ => False

theorem harmless_of_mem_pinEntries {script : PinScript} {e : TraceEntry} (h : e ∈ pinEntries script) : e.Harmless := by
  obtain ⟨w, -, rfl⟩ := List.mem_map.1 h
  trivial

/-- Every sample of a legal sensor is in range, given or free (42 R171). -/
theorem State.sampleAt_le {s : State} (h : s.samplesLegal) (k : Nat) : s.sampleAt k ≤ Config.adcMax := by
  unfold State.sampleAt
  split
  · exact h.1 _ (List.getElem_mem _)
  · exact freeSample_le _

theorem harmless_of_mem_nextSamples {s : State} (h : s.samplesLegal) {n : Nat} {e : TraceEntry}
    (he : e ∈ (s.nextSamples n).map TraceEntry.sensor) : e.Harmless := by
  obtain ⟨v, hv, rfl⟩ := List.mem_map.1 he
  obtain ⟨k, -, rfl⟩ := List.mem_map.1 hv
  exact State.sampleAt_le h k

/-! ## What keeps the invariant -/

theorem State.samplesLegal_of_append {s t : State} (h : s.samplesLegal) {added : List TraceEntry}
    (htrace : t.trace = s.trace ++ added) (hadded : ∀ v, TraceEntry.sensor v ∈ added → v ≤ Config.adcMax)
    (hsensor : ∀ v ∈ t.sensor, v ∈ s.sensor) : t.samplesLegal := by
  obtain ⟨hgiven, hread⟩ := h
  refine ⟨fun v hv => hgiven v (hsensor v hv), fun v hv => ?_⟩
  rw [htrace, List.mem_append] at hv
  exact hv.elim (hread v) (hadded v)

/-- An operation keeps the invariant when it leaves the status and the clocks idle, adds harmless entries to the
trace, takes samples only from the given ones, and hands back no duty out of range. -/
theorem State.Inv.of_harmless {s t : State} (h : s.Inv) (hrunning : s.halt = false) (hpins : t.pinsIdle)
    (hhalt : t.halt = s.halt) (hcause : t.cause = s.cause) {added : List TraceEntry}
    (htrace : t.trace = s.trace ++ added) (hadded : ∀ e ∈ added, e.Harmless)
    (hsensor : ∀ v ∈ t.sensor, v ∈ s.sensor) (hresult : t.resultLegal) : t.Inv where
  pins := hpins
  status := by rw [State.statusLegal, hhalt, hcause]; exact h.status
  traceStatus := by
    refine ⟨fun _ c hc => ?_, fun ht => absurd (hhalt.symm.trans ht) (ne_true_of_eq_false hrunning)⟩
    rw [htrace, List.mem_append] at hc
    exact hc.elim (h.traceStatus.1 hrunning c) (hadded (.fault c))
  samples := State.samplesLegal_of_append h.samples htrace (fun v hv => hadded (.sensor v) hv) hsensor
  result := hresult

theorem State.resultLegal_of_none {s : State} (h : s.result = none) : s.resultLegal := by
  intro v hv
  rw [h] at hv
  cases hv

theorem FatalError.code_cases (e : FatalError) : e.code = 1 ∨ e.code = 2 := by
  cases e
  · exact .inl rfl
  · exact .inr rfl

/-- A fatal error keeps the invariant: its entry is the first fault and the last entry (60 R224). -/
theorem State.Inv.raise {s : State} (h : s.Inv) (hrunning : s.halt = false) (e : FatalError) :
    (State.raise { s with result := none } e).Inv where
  pins := h.pins
  status := .inr ⟨rfl, e.code_cases⟩
  traceStatus := ⟨(fun hc => nomatch hc), fun _ => ⟨s.trace, rfl, h.traceStatus.1 hrunning⟩⟩
  samples := State.samplesLegal_of_append h.samples rfl (by simp) (fun _ hv => hv)
  result := State.resultLegal_of_none rfl

/-- `CDUTY` hands back a duty in range (42 R175). -/
theorem State.afterCduty_resultLegal (s : State) : s.afterCduty.resultLegal := by
  intro v hv
  rw [State.afterCduty_result] at hv
  cases hv
  exact ofInt_dutyOfSum_bounds _

theorem exec_keeps_inv {i : Instr} {s t : State} (hs : s.Inv) (h : exec i s = .next t) : t.Inv := by
  obtain ⟨hrun, hcases⟩ := exec_cases h
  rcases hcases with ⟨_, _, p, -, -, rfl⟩ | ⟨ps, -, rfl⟩ | ⟨e, -, rfl⟩ | ⟨-, rfl⟩ | ⟨hz, -, rfl⟩ | ⟨v, -, -, rfl⟩
  · exact hs.of_harmless hrun hs.pins rfl rfl (List.append_nil _).symm (by simp) (fun _ hv => hv)
      (fun v hv => nomatch hv)
  · rw [State.shiftOut_eq { s with result := none } ps hs.pins rfl]
    exact hs.of_harmless hrun ⟨rfl, rfl⟩ rfl rfl rfl (fun _ => harmless_of_mem_pinEntries) (fun _ hv => hv)
      (State.resultLegal_of_none rfl)
  · exact hs.raise hrun e
  · exact hs.of_harmless hrun hs.pins rfl rfl rfl (fun _ => harmless_of_mem_nextSamples hs.samples)
      (fun _ => List.mem_of_mem_drop) s.afterCduty_resultLegal
  · exact hs.of_harmless hrun hs.pins rfl rfl rfl (by simp [TraceEntry.Harmless]) (fun _ hv => hv)
      (State.resultLegal_of_none rfl)
  · exact hs.of_harmless hrun hs.pins rfl rfl rfl (by simp [TraceEntry.Harmless]) (fun _ hv => hv)
      (State.resultLegal_of_none rfl)

/-- The pending commands have no part in the invariant. -/
theorem State.Inv.withCommands {s : State} (h : s.Inv) (ws : List CommandWord) :
    State.Inv { s with commands := ws } :=
  ⟨h.pins, h.status, h.traceStatus, h.samples, h.result⟩

theorem State.resetWith_inv (sr out : Chain) (duty : BitVec 10) (freq : Nat) :
    (State.resetWith sr out duty freq).Inv where
  pins := ⟨rfl, rfl⟩
  status := .inl ⟨rfl, rfl⟩
  traceStatus := ⟨fun _ _ => List.not_mem_nil, fun h => nomatch h⟩
  samples := ⟨(fun _ h => nomatch h), fun _ h => nomatch h⟩
  result := State.resultLegal_of_none rfl

/-! ## The obligations -/

/-- Settles O51: a waiting step changes nothing, and any other is an operation on the state without its words. -/
theorem stepKeepsInvariant : Obligations.StepKeepsInvariant := by
  intro s t hs h
  obtain ⟨-, ⟨-, rfl⟩ | ⟨i, rest, -, hexec⟩⟩ := step_cases h
  · exact hs
  · exact exec_keeps_inv (hs.withCommands rest) hexec

/-- Settles O52: the open constants are one choice of the unspecified registers. -/
theorem resetHasInvariant : Obligations.ResetHasInvariant :=
  ⟨State.resetWith_inv, State.resetWith_inv _ _ _ _⟩

/-- Settles O53: by the definition of the reset state. -/
theorem resetLeavesFreeInputs : Obligations.ResetLeavesFreeInputs :=
  fun _ _ _ _ => ⟨rfl, _, _, _, _, rfl⟩

end Sys2Proof.Machine
end

section
/-! PROOFS. The shift-out (spec 41): the chain stage by stage, the pin writes of `SHOUT` counted, the states between
its micro-steps, and what it does when begun with a clock pin high. -/

namespace Sys2Proof.Machine

/-! ## The stages of the chain -/

theorem chainAfter_nil (sr : Chain) : chainAfter sr [] = sr := by
  rw [chainAfter, List.foldl_nil, BitVec.ofNat_toNat, BitVec.setWidth_eq]

/-- What stood in the chain before moves up by one stage for each bit shifted in (41 R142). -/
theorem testBit_shiftInBits_length_add (start : Nat) (bs : List Bool) (i : Nat) :
    (shiftInBits start bs).testBit (bs.length + i) = start.testBit i := by
  induction bs using List.reverseRecOn generalizing i with
  | nil => rw [List.length_nil, Nat.zero_add]; rfl
  | append_singleton bs b ih =>
    rw [shiftInBits_concat, List.length_append, List.length_singleton, Nat.add_right_comm, ← Nat.bit_val,
      Nat.testBit_bit_succ, ih]

/-- Stage `j` below `8N` holds a bit of a pattern (41 R151). -/
theorem chainAfter_getLsbD_low (sr : Chain) (ps : List Pattern) (j : Nat) (hj : j < 24) (hlow : j < 8 * ps.length) :
    some ((chainAfter sr ps).getLsbD j) = (ps[ps.length - 1 - j / 8]?).map fun p => p.getLsbD (j % 8) := by
  have hwire := getElem?_wireBits_eq_chainAfter sr ps (8 * ps.length - 1 - j) (by omega) (by omega)
  have hstage : 8 * ps.length - 1 - (8 * ps.length - 1 - j) = j := by omega
  have hpattern : (8 * ps.length - 1 - j) / 8 = ps.length - 1 - j / 8 := by omega
  have helement : 7 - (8 * ps.length - 1 - j) % 8 = j % 8 := by omega
  rw [getElem?_wireBits, hstage, hpattern, helement] at hwire
  exact hwire.symm

/-- Stage `j` from `8N` on holds what stood `8N` stages below (41 R151). -/
theorem chainAfter_getLsbD_high (sr : Chain) (ps : List Pattern) (j : Nat) (hj : j < 24) (hhigh : 8 * ps.length ≤ j) :
    (chainAfter sr ps).getLsbD j = sr.getLsbD (j - 8 * ps.length) := by
  have h := testBit_shiftInBits_length_add sr.toNat (wireBits ps) (j - 8 * ps.length)
  rw [length_wireBits, Nat.add_sub_cancel' hhigh, shiftInBits_wireBits, BitVec.testBit_toNat] at h
  rw [chainAfter, BitVec.getLsbD_ofNat, decide_eq_true hj, Bool.true_and, h]

/-- Three patterns or more fill the chain, whatever it held (41 R153). -/
theorem chainAfter_of_three_le (sr sr' : Chain) {ps : List Pattern} (h : 3 ≤ ps.length) :
    chainAfter sr ps = chainAfter sr' ps := by
  apply BitVec.eq_of_getLsbD_eq
  intro j hj
  apply Option.some.inj
  rw [chainAfter_getLsbD_low sr ps j hj (by omega), chainAfter_getLsbD_low sr' ps j hj (by omega)]

/-- Three patterns leave the frame word (20_memory R55). -/
theorem chainAfter_three_eq_frameWord (sr : Chain) (p0 p1 p2 : Pattern) :
    chainAfter sr [p0, p1, p2] = frameWord p0 p1 p2 := by
  apply BitVec.eq_of_toNat_eq
  simp only [chainAfter, frameWord, List.foldl_cons, List.foldl_nil, BitVec.toNat_ofNat]
  omega

theorem dataAfter_idem (old : Bool) (ps : List Pattern) : dataAfter (dataAfter old ps) ps = dataAfter old ps := by
  cases ps with
  | nil => rfl
  | cons p ps => rfl

/-- `ShiftPattern(P)` begun with the shift clock low: the chain after one pattern (41 R146). -/
theorem State.runScript_shiftPattern (s : State) (p : Pattern) (h : s.shcp = false) :
    s.runScript (shiftPattern p) = { s with
      data := p.getLsbD 0
      shcp := false
      sr := chainAfter s.sr [p]
      trace := s.trace ++ pinEntries (shiftPattern p) } := by
  rw [shiftPattern_eq, State.runScript_shiftBits s _ h, shiftInBits_wireBits]
  rfl

/-! ## The pin writes of `SHOUT` -/

/-- The latch clock has no part in shifting bits (41 R145). -/
theorem ne_stcp_of_mem_shiftBits {bs : List Bool} {w : Pin × Bool} (h : w ∈ bs.flatMap shiftBit) :
    w.1 ≠ Pin.stcp := by
  obtain ⟨b, -, hw⟩ := List.mem_flatMap.1 h
  simp only [shiftBit, List.mem_cons, List.not_mem_nil, or_false] at hw
  rcases hw with rfl | rfl | rfl
  · exact Pin.noConfusion
  · exact Pin.noConfusion
  · exact Pin.noConfusion

/-- A kind of pin write of which each bit has one. -/
theorem countP_shiftBits {q : Pin × Bool → Bool} (h : ∀ b, (shiftBit b).countP q = 1) (bs : List Bool) :
    (bs.flatMap shiftBit).countP q = bs.length := by
  induction bs with
  | nil => rfl
  | cons b bs ih => rw [List.flatMap_cons, List.countP_append, h, ih, List.length_cons, Nat.add_comm]

theorem length_shiftBits (bs : List Bool) : (bs.flatMap shiftBit).length = 3 * bs.length := by
  induction bs with
  | nil => rfl
  | cons b bs ih => rw [List.flatMap_cons, List.length_append, ih, List.length_cons, Nat.mul_succ, Nat.add_comm]; rfl

theorem length_shoutBits (ps : List Pattern) : ((wireBits ps).flatMap shiftBit).length = 24 * ps.length := by
  rw [length_shiftBits, length_wireBits, ← Nat.mul_assoc]

theorem length_shoutScript (ps : List Pattern) : (shoutScript ps).length = 24 * ps.length + 2 := by
  rw [shoutScript_eq, List.length_append, length_shoutBits]
  rfl

/-- A kind of pin write of which each bit has one and the latch pulse none (41 R152). -/
theorem countP_shoutScript {q : Pin × Bool → Bool} (hbit : ∀ b, (shiftBit b).countP q = 1)
    (hlatch : latchPulse.countP q = 0) (ps : List Pattern) : (shoutScript ps).countP q = 8 * ps.length := by
  rw [shoutScript_eq, List.countP_append, countP_shiftBits hbit, hlatch, length_wireBits, Nat.add_zero]

/-! ## The outputs and the latch clock during a script -/

/-- Until the latch clock is written high the outputs are the old ones (41 R143, R144). -/
theorem State.runScript_out {script : PinScript} (s : State) (h : ∀ w ∈ script, w ≠ (.stcp, true)) :
    (s.runScript script).out = s.out := by
  induction script generalizing s with
  | nil => rfl
  | cons w ws ih =>
    obtain ⟨hw, hws⟩ := List.forall_mem_cons.1 h
    rw [State.runScript_cons, ih _ hws, State.pinWrite_out s _ _ hw]

theorem State.runScript_stcp {script : PinScript} (s : State) (h : ∀ w ∈ script, w.1 ≠ Pin.stcp) :
    (s.runScript script).stcp = s.stcp := by
  induction script generalizing s with
  | nil => rfl
  | cons w ws ih =>
    obtain ⟨hw, hws⟩ := List.forall_mem_cons.1 h
    rw [State.runScript_cons, ih _ hws]
    exact s.pinWrite_level_of_ne w.2 hw.symm

theorem State.runScript_shiftBits_out (s : State) (bs : List Bool) :
    (s.runScript (bs.flatMap shiftBit)).out = s.out :=
  s.runScript_out fun _ hw heq => ne_stcp_of_mem_shiftBits hw (congrArg Prod.fst heq)

theorem State.runScript_shiftBits_stcp (s : State) (bs : List Bool) :
    (s.runScript (bs.flatMap shiftBit)).stcp = s.stcp :=
  s.runScript_stcp fun _ hw => ne_stcp_of_mem_shiftBits hw

/-! ## Begun with a clock pin high (70 R273) -/

/-- The pulse of a latch clock that is high already has no rising edge. -/
theorem State.runScript_latchPulse_of_high (s : State) (h : s.stcp = true) :
    s.runScript latchPulse = { s with stcp := false, trace := s.trace ++ pinEntries latchPulse } := by
  simp only [latchPulse, State.runScript_cons, State.runScript_nil]
  rw [State.pinWrite_stcp_high s h, State.pinWrite_stcp_low]
  simp [pinEntries]

/-- The first pulse of a shift clock that is high already has no rising edge, so the first bit is not shifted in. -/
theorem State.runScript_shiftBits_of_high (s : State) (b : Bool) (bs : List Bool) (h : s.shcp = true) :
    s.runScript ((b :: bs).flatMap shiftBit) = { s with
      data := bs.getLastD b
      shcp := false
      sr := BitVec.ofNat 24 (shiftInBits s.sr.toNat bs)
      trace := s.trace ++ pinEntries ((b :: bs).flatMap shiftBit) } := by
  have hfirst : s.runScript (shiftBit b) =
      { s with data := b, shcp := false, trace := s.trace ++ pinEntries (shiftBit b) } := by
    simp only [shiftBit, State.runScript_cons, State.runScript_nil]
    rw [State.pinWrite_data_eq, State.pinWrite_shcp_high _ (by simpa using h), State.pinWrite_shcp_low]
    simp [pinEntries]
  rw [List.flatMap_cons, State.runScript_append, hfirst, State.runScript_shiftBits _ bs rfl]
  simp [pinEntries]

/-- Bits shifted in hide what stood in the stages they fill. -/
theorem testBit_shiftInBits_congr (start start' : Nat) (bs : List Bool) (j : Nat) (hj : j < bs.length) :
    (shiftInBits start bs).testBit j = (shiftInBits start' bs).testBit j := by
  have hplace : bs.length - 1 - (bs.length - 1 - j) = j := by omega
  have h := getElem?_eq_testBit_shiftInBits start bs (bs.length - 1 - j) (by omega)
  have h' := getElem?_eq_testBit_shiftInBits start' bs (bs.length - 1 - j) (by omega)
  rw [hplace] at h h'
  exact Option.some.inj (h.symm.trans h')

/-- The chain after 24 bits of which the first was not shifted in: one stage behind, with the old stage 0 last. -/
theorem stages_of_lost_first_bit (sr : Chain) (b : Bool) (bs : List Bool) (hlen : bs.length = 23) :
    (BitVec.ofNat 24 (shiftInBits sr.toNat bs)).getLsbD 23 = sr.getLsbD 0 ∧
    ∀ j < 23, (BitVec.ofNat 24 (shiftInBits sr.toNat bs)).getLsbD j =
      (BitVec.ofNat 24 (shiftInBits sr.toNat (b :: bs))).getLsbD j := by
  constructor
  · have h := testBit_shiftInBits_length_add sr.toNat bs 0
    rw [hlen, BitVec.testBit_toNat] at h
    rw [BitVec.getLsbD_ofNat, decide_eq_true (by omega), Bool.true_and]
    exact h
  · intro j hj
    rw [BitVec.getLsbD_ofNat, BitVec.getLsbD_ofNat]
    exact congrArg _ (testBit_shiftInBits_congr sr.toNat (2 * sr.toNat + b.toNat) bs j (by omega))

/-! ## The operation -/

theorem exec_shout {s : State} (ps : List Pattern) (hh : s.halt = false) :
    exec (.shout ps) s = .next (State.shiftOut { s with result := none } ps) :=
  exec_of_shiftedPatterns_ok (i := .shout ps) rfl hh

/-! ## The obligations -/

/-- Settles O9: a shift puts the level of `DATA` below the number in the chain, a latch copies the chain. -/
theorem shiftAndLatchByStage : Obligations.ShiftAndLatchByStage := by
  intro s
  have hstage : ∀ j < 24, s.shift.sr.getLsbD j = (Nat.bit s.data s.sr.toNat).testBit j := fun j hj => by
    rw [State.shift_sr, BitVec.getLsbD_ofNat, decide_eq_true hj, Bool.true_and, Nat.bit_val]
  refine ⟨fun j hlow hj => ?_, ?_, rfl, fun _ _ => rfl, rfl⟩
  · have hsucc : j = j - 1 + 1 := by omega
    rw [hstage j hj, hsucc, Nat.testBit_bit_succ, BitVec.testBit_toNat, Nat.add_sub_cancel]
  · rw [hstage 0 (by omega), Nat.testBit_bit_zero]

/-- Settles O12: the script leaves the chain after one pattern. -/
theorem shiftPatternMovesChainByEight : Obligations.ShiftPatternMovesChainByEight := by
  intro s p h
  rw [s.runScript_shiftPattern p h]
  refine ⟨fun i hi => chainAfter_concat_low s.sr [] p i hi, fun j hlow hj => ?_, rfl, rfl, rfl⟩
  exact chainAfter_getLsbD_high s.sr [p] j hj hlow

/-- Settles O15: the end state of `SHOUT` begun with the clocks low. -/
theorem shoutEndState : Obligations.ShoutEndState := exec_shout_of_idle

/-- Settles O16: the end state of `SHOUT`, read by stage. -/
theorem shoutEndStateByStage : Obligations.ShoutEndStateByStage := fun s ps hh hp =>
  ⟨_, exec_shout_of_idle s ps hh hp, rfl, fun j hj =>
    ⟨chainAfter_getLsbD_low s.sr ps j hj, chainAfter_getLsbD_high s.sr ps j hj⟩⟩

/-- Settles O18: the end state of `SHOUT`, whose chain after three patterns is the frame word. -/
theorem frameWordReachesOutputs : Obligations.FrameWordReachesOutputs := fun s p0 p1 p2 hh hp =>
  have hword := chainAfter_three_eq_frameWord s.sr p0 p1 p2
  ⟨_, exec_shout_of_idle s _ hh hp, hword, hword, ⟨rfl, rfl⟩, rfl⟩

/-- Settles O19: the script is three writes for each of the `8N` bits and one latch pulse. -/
theorem shoutPinWriteCounts : Obligations.ShoutPinWriteCounts := by
  intro s ps hh
  obtain ⟨-, -, -, -, htrace, -⟩ := State.runScript_frame { s with result := none } (shoutScript ps)
  exact ⟨_, exec_shout ps hh, htrace, length_shoutScript ps, countP_shoutScript (by decide) (by decide) ps,
    countP_shoutScript (by decide) (by decide) ps, countP_shoutScript (by decide) (by decide) ps,
    _, shoutScript_eq ps, fun _ => ne_stcp_of_mem_shiftBits⟩

/-- Settles O20: a first part of the script is bits alone, which leave the outputs, or all bits and the rising edge
of the latch clock, after which no other follows. -/
theorem partialFramesNeverVisible : Obligations.PartialFramesNeverVisible := by
  intro s ps k
  rw [shoutScript_eq]
  refine ⟨fun hk => ?_, fun hk hp => ?_⟩
  · rw [List.take_append_of_le_length (by rwa [length_shoutBits])]
    exact s.runScript_out fun w hw heq => ne_stcp_of_mem_shiftBits (List.mem_of_mem_take hw) (congrArg Prod.fst heq)
  · obtain ⟨hshcp, hstcp⟩ := hp
    obtain ⟨m, rfl⟩ : ∃ m, k = ((wireBits ps).flatMap shiftBit).length + (m + 1) :=
      ⟨k - 24 * ps.length - 1, by rw [length_shoutBits]; omega⟩
    have hafter : ∀ w ∈ List.take m [(Pin.stcp, false)], w ≠ (Pin.stcp, true) := fun w hw => by
      rw [List.mem_singleton.1 (List.mem_of_mem_take hw)]
      decide
    rw [List.take_length_add_append, State.runScript_append, latchPulse, List.take_succ_cons, State.runScript_cons,
      State.runScript_out _ hafter, State.pinWrite_stcp_rising _ (by rwa [State.runScript_shiftBits_stcp]),
      State.runScript_shiftBits s _ hshcp, shiftInBits_wireBits]
    rfl

/-- Settles O21: three patterns or more hide the old chain, no pattern keeps it; one pattern sent to an empty chain
moves on when it is sent again. -/
theorem wholeFrameIdempotent : Obligations.WholeFrameIdempotent := by
  constructor
  · intro s t u ps hp hlen ht hu
    obtain ⟨hh, -⟩ := exec_cases ht
    rw [exec_shout_of_idle s ps hh hp] at ht
    cases ht
    rw [exec_shout_of_idle (s.afterShout ps) ps hh ⟨rfl, rfl⟩] at hu
    cases hu
    have hchain : chainAfter (chainAfter s.sr ps) ps = chainAfter s.sr ps := by
      rcases hlen with hthree | rfl
      · exact chainAfter_of_three_le _ _ hthree
      · exact chainAfter_nil _
    exact ⟨hchain, hchain, dataAfter_idem s.data ps, rfl, rfl⟩
  · refine ⟨State.resetWith 0 0 0 0, _, _, 1, ⟨rfl, rfl⟩, exec_shout_of_idle _ [1] rfl ⟨rfl, rfl⟩,
      exec_shout_of_idle _ [1] rfl ⟨rfl, rfl⟩, ?_⟩
    decide

/-- Settles O22: without a rising edge the latch pulse leaves the outputs, and the first bit is not shifted in. -/
theorem highClockSwallowsPulse : Obligations.HighClockSwallowsPulse := by
  constructor
  · intro s ps hh hstcp
    refine ⟨_, exec_shout ps hh, ?_⟩
    rw [State.shiftOut, shoutScript_eq, State.runScript_append,
      State.runScript_latchPulse_of_high _ (by rwa [State.runScript_shiftBits_stcp])]
    exact ⟨State.runScript_shiftBits_out _ _, rfl⟩
  · intro s p0 p1 p2 hh hshcp hstcp
    obtain ⟨b, bs, hbits⟩ := List.exists_cons_of_length_eq_add_one (length_wireBits [p0, p1, p2])
    have hlen : bs.length = 23 := by
      have := length_wireBits [p0, p1, p2]
      rw [hbits] at this
      exact Nat.succ.inj this
    have hword : frameWord p0 p1 p2 = BitVec.ofNat 24 (shiftInBits s.sr.toNat (b :: bs)) := by
      rw [← hbits, shiftInBits_wireBits, ← chainAfter_three_eq_frameWord s.sr, chainAfter]
    obtain ⟨hlast, hothers⟩ := stages_of_lost_first_bit s.sr b bs hlen
    refine ⟨_, exec_shout _ hh, ?_⟩
    rw [State.shiftOut, shoutScript_eq, hbits, State.runScript_append,
      State.runScript_shiftBits_of_high { s with result := none } b bs hshcp,
      State.runScript_latchPulse _ (by simpa using hstcp), hword]
    exact ⟨hlast, hothers, rfl, rfl⟩

end Sys2Proof.Machine
end

section
/-! PROOFS. The encoder's refusals, `FRAME` and the time on the display (spec 40, 41, 43): what the checks of a frame
and of a time decide, and what the stages of the chain show. -/

namespace Sys2Proof.Machine

/-! ## The encoder -/

theorem encodeSymbol_digit_of_gt (x : Bool) {d : Nat} (h : 9 < d) :
    encodeSymbol x (.digit d) = .refuse .digitOutOfRange :=
  dif_neg (by omega)

theorem validate_digit_of_gt {d : Nat} (h : 9 < d) : validate (.digit d) = .refuse .digitOutOfRange :=
  if_neg (by omega)

theorem exec_encoderInstr_of_refuse {a : Assignment} {r : Refusal} {s : State} (hh : s.halt = false)
    (h : encodeSymbol a.extra a.symbol = .refuse r) : exec (encoderInstr a) s = .refused r := by
  rw [exec_encoderInstr a hh, giveEncoded, h]
  rfl

/-- An encoder operation that leaves a pattern on the result port encoded its symbol, and changed nothing else:
after a fatal error the port is empty (30_encoding R95). -/
theorem exec_encoderInstr_pattern {a : Assignment} {p : Pattern} {s t : State}
    (h : exec (encoderInstr a) s = .next t) (hp : t.result = some (.pattern p)) :
    encodeSymbol a.extra a.symbol = .ok p ∧ t = { s with result := some (.pattern p) } := by
  obtain ⟨hh, -⟩ := exec_cases h
  cases henc : encodeSymbol a.extra a.symbol with
  | ok q =>
    rw [exec_encoderInstr_of_ok hh henc] at h
    cases h
    cases hp
    exact ⟨rfl, rfl⟩
  | raise e =>
    rw [exec_encoderInstr_of_raise hh henc] at h
    cases h
    cases hp
  | refuse r =>
    rw [exec_encoderInstr_of_refuse hh henc] at h
    cases h

/-! ## Operations that shift patterns out -/

theorem exec_of_shiftedPatterns_refuse {i : Instr} {r : Refusal} (h : shiftedPatterns i = some (.refuse r))
    {s : State} (hh : s.halt = false) : exec i s = .refused r := by
  rw [exec_of_shiftedPatterns h, issue_running s _ hh]
  rfl

/-- Begun with the clocks low, an operation whose checks answer patterns ends as their `SHOUT` (41 R151). -/
theorem exec_of_shiftedPatterns_ok_idle {i : Instr} {ps : List Pattern} (h : shiftedPatterns i = some (.ok ps))
    {s : State} (hh : s.halt = false) (hp : s.pinsIdle) : exec i s = .next (s.afterShout ps) :=
  (exec_congr_of_shiftedPatterns h rfl).trans (exec_shout_of_idle s ps hh hp)

/-! ## The checks of a frame -/

/-- The stage that a frame's validation examines after stages it found valid (41 R150). -/
def StageExamined (a0 a1 a2 stage : Assignment) : Prop :=
  stage = a0 ∨ (validate a0.symbol = .ok () ∧ stage = a1) ∨
    (validate a0.symbol = .ok () ∧ validate a1.symbol = .ok () ∧ stage = a2)

theorem encodeFrame_of_stage_raise {a0 a1 a2 stage : Assignment} {e : FatalError}
    (hstage : StageExamined a0 a1 a2 stage) (h : validate stage.symbol = .raise e) :
    encodeFrame a0 a1 a2 = .raise e := by
  rcases hstage with rfl | ⟨h0, rfl⟩ | ⟨h0, h1, rfl⟩
  · simp [encodeFrame, Checked.andThen, h]
  · simp [encodeFrame, Checked.andThen, h0, h]
  · simp [encodeFrame, Checked.andThen, h0, h1, h]

theorem encodeFrame_of_stage_refuse {a0 a1 a2 stage : Assignment} {r : Refusal}
    (hstage : StageExamined a0 a1 a2 stage) (h : validate stage.symbol = .refuse r) :
    encodeFrame a0 a1 a2 = .refuse r := by
  rcases hstage with rfl | ⟨h0, rfl⟩ | ⟨h0, h1, rfl⟩
  · simp [encodeFrame, Checked.andThen, h]
  · simp [encodeFrame, Checked.andThen, h0, h]
  · simp [encodeFrame, Checked.andThen, h0, h1, h]

/-! ## The checks of `DISP` and `TIME` past the hour-tens digit -/

theorem encodeDigits_of_bad_digit {ht hu mt mu : Nat} (hht : ht = 0 ∨ ht = 1) (hbad : 9 < hu ∨ 9 < mt ∨ 9 < mu) :
    encodeDigits ht hu mt mu = .refuse .digitOutOfRange := by
  obtain ⟨x, rfl⟩ := exists_toNat_eq_hourTens hht
  rw [encodeDigits, hourTensBit_toNat, Checked.andThen, if_pos hbad]

theorem encodeTime_of_bad_time {h m : Nat} (hht : h / 10 = 0 ∨ h / 10 = 1) (hbad : h < 1 ∨ 12 < h ∨ 59 < m) :
    encodeTime h m = .refuse .timeOutOfRange := by
  obtain ⟨x, hx⟩ := exists_toNat_eq_hourTens hht
  rw [encodeTime, ← hx, hourTensBit_toNat, Checked.andThen, if_pos hbad]

/-! ## What eight stages show -/

/-- Eight stages that hold a pattern show its extra bit and its row (30_encoding R80; 41 R155). -/
theorem stages_show_pattern {chain : Chain} {base : Nat} {x : Bool} {row : SegRow}
    (h : ∀ i < 8, chain.getLsbD (base + i) = (prependExtra x row).getLsbD i) :
    chain.getLsbD base = x ∧ chain.extractLsb' (base + 1) 7 = row := by
  obtain ⟨hextra, hrow, -⟩ := prependExtra_bits x row
  refine ⟨(h 0 (by omega)).trans hextra, BitVec.eq_of_getLsbD_eq fun k hk => ?_⟩
  rw [BitVec.getLsbD_extractLsb', decide_eq_true hk, Bool.true_and, ← hrow k hk, ← h (k + 1) (by omega)]
  congr 1
  omega

/-- After three patterns the chain shows each in its own eight stages, the first one highest (20_memory R54). -/
theorem chainAfter_three_shows (sr : Chain) (x0 x1 x2 : Bool) (row0 row1 row2 : SegRow) {chain : Chain}
    (h : chain = chainAfter sr [prependExtra x0 row0, prependExtra x1 row1, prependExtra x2 row2]) :
    (chain.getLsbD 16 = x0 ∧ chain.extractLsb' 17 7 = row0) ∧ (chain.getLsbD 8 = x1 ∧ chain.extractLsb' 9 7 = row1) ∧
      (chain.getLsbD 0 = x2 ∧ chain.extractLsb' 1 7 = row2) := by
  have hstages := chainAfter_three sr (prependExtra x0 row0) (prependExtra x1 row1) (prependExtra x2 row2)
  rw [← h] at hstages
  refine ⟨stages_show_pattern fun i hi => ?_, stages_show_pattern fun i hi => ?_,
    stages_show_pattern (base := 0) fun i hi => ?_⟩
  · obtain ⟨hstage0, -, -⟩ := hstages i hi
    exact hstage0
  · obtain ⟨-, hstage1, -⟩ := hstages i hi
    exact hstage1
  · obtain ⟨-, -, hstage2⟩ := hstages i hi
    rwa [Nat.zero_add]

/-- The entries of a shift-out (41 R152). -/
theorem length_pinEntries_shoutScript (ps : List Pattern) :
    (pinEntries (shoutScript ps)).length = 24 * ps.length + 2 := by
  rw [pinEntries, List.length_map, length_shoutScript]

theorem exec_disp_of_digits (x : Bool) (hu mt mu : Fin 10) {s : State} (hh : s.halt = false) (hp : s.pinsIdle) :
    exec (.disp x.toNat hu.val mt.val mu.val) s = .next (s.afterShout
      [prependExtra x (memRead hu), prependExtra true (memRead mt), prependExtra true (memRead mu)]) :=
  exec_of_shiftedPatterns_ok_idle (i := .disp x.toNat hu.val mt.val mu.val)
    (congrArg some (encodeDigits_of_digits x hu mt mu)) hh hp

/-- A 12-hour time has digits of the ROM, and an extra bit that is its hour-tens digit (43 R200). -/
theorem exists_timeDigits {h m : Nat} (hh : h ≤ 12) (hm : m ≤ 59) :
    ∃ hu mt mu : Fin 10, hu.val = h % 10 ∧ mt.val = m / 10 ∧ mu.val = m % 10 ∧
      (decide (h / 10 = 1)).toNat = h / 10 := by
  obtain ⟨hht, -, hmt, -⟩ := timeDigits_bounds hh hm
  refine ⟨⟨h % 10, by omega⟩, ⟨m / 10, by omega⟩, ⟨m % 10, by omega⟩, rfl, rfl, rfl, ?_⟩
  rcases hht with h0 | h1
  · rw [h0]; rfl
  · rw [h1]; rfl

/-! ## The obligations -/

/-- Settles O1: the operation hands the encoding back, whose bits are the extra bit and the row. -/
theorem encdGivesRowWithExtraBit : Obligations.EncdGivesRowWithExtraBit :=
  fun _ x d hh => ⟨_, exec_encd x d hh, prependExtra_bits x (memRead d)⟩

/-- Settles O2: the encoder refuses the digit. -/
theorem encdRefusesNonDigits : Obligations.EncdRefusesNonDigits := fun _ x d hh hd =>
  exec_encoderInstr_of_refuse (a := ⟨x, .digit d⟩) hh (encodeSymbol_digit_of_gt x hd)

/-- Settles O7: the two functions make the same test for each form of symbol. -/
theorem validateAgreesWithEncode : Obligations.ValidateAgreesWithEncode := by
  intro x sym
  cases henc : encodeSymbol x sym with
  | ok p => exact validate_ok_of_encode henc
  | raise e =>
    obtain ⟨rfl, l, rfl, hl⟩ := encodeSymbol_raise henc
    exact validate_raw_of_malformed ((rawValid_false_iff l).1 hl)
  | refuse r =>
    obtain ⟨rfl, d, rfl, hd⟩ := encodeSymbol_refuse henc
    exact validate_digit_of_gt hd

/-- Settles O23: the checks of the frame answer the three patterns. -/
theorem frameShiftsItsEncodings : Obligations.FrameShiftsItsEncodings :=
  fun _ a0 a1 a2 _ _ _ hh hp h0 h1 h2 =>
    exec_of_shiftedPatterns_ok_idle (i := .frame a0 a1 a2) (congrArg some (encodeFrame_ok h0 h1 h2)) hh hp

/-- Settles O24: the frame answers what the validation of its first bad stage answers. -/
theorem frameFirstBadStageDecides : Obligations.FrameFirstBadStageDecides := by
  intro s a0 a1 a2 bad hh hstage
  refine ⟨fun l hraw hmalformed => ?_, fun d hdigit hd => ?_⟩
  · have hcheck : validate bad.symbol = .raise .invalidPattern := hraw ▸ validate_raw_of_malformed hmalformed
    exact exec_of_shiftedPatterns_raise (i := .frame a0 a1 a2)
      (congrArg some (encodeFrame_of_stage_raise hstage hcheck)) hh
  · have hcheck : validate bad.symbol = .refuse .digitOutOfRange := hdigit ▸ validate_digit_of_gt hd
    exact exec_of_shiftedPatterns_refuse (i := .frame a0 a1 a2)
      (congrArg some (encodeFrame_of_stage_refuse hstage hcheck)) hh

/-- Settles O25: the encoder operations changed the result port alone, which the next operation empties. -/
theorem frameIsEncodersThenShout : Obligations.FrameIsEncodersThenShout := by
  intro s t0 t1 t2 a0 a1 a2 p0 p1 p2 h0 hp0 h1 hp1 h2 hp2
  obtain ⟨hh, -⟩ := exec_cases h0
  obtain ⟨henc0, rfl⟩ := exec_encoderInstr_pattern h0 hp0
  obtain ⟨henc1, rfl⟩ := exec_encoderInstr_pattern h1 hp1
  obtain ⟨henc2, rfl⟩ := exec_encoderInstr_pattern h2 hp2
  have hframe : shiftedPatterns (.frame a0 a1 a2) = some (.ok [p0, p1, p2]) :=
    congrArg some (encodeFrame_ok henc0 henc1 henc2)
  rw [exec_of_shiftedPatterns_ok hframe hh, exec_shout [p0, p1, p2] (by exact hh)]

/-- Settles O26: the checks of `DISP` answer the three patterns. -/
theorem dispShowsFourDigits : Obligations.DispShowsFourDigits :=
  fun _ x hu mt mu hh hp => exec_disp_of_digits x hu mt mu hh hp

/-- Settles O29: past the hour-tens check the digits and the time are tested for their ranges. -/
theorem dispAndTimeRefusals : Obligations.DispAndTimeRefusals := fun _ hh =>
  ⟨fun ht hu mt mu hht hbad => exec_of_shiftedPatterns_refuse (i := .disp ht hu mt mu)
      (congrArg some (encodeDigits_of_bad_digit hht hbad)) hh,
    fun h m hlt hbad => exec_of_shiftedPatterns_refuse (i := .time h m)
      (congrArg some (encodeTime_of_bad_time (by omega) (by omega))) hh⟩

/-- Settles O31: `TIME` is `DISP` of the four digits, which ends as the `SHOUT` of three patterns, and each pattern
stands in its own eight stages. -/
theorem timeShownOnDisplay : Obligations.TimeShownOnDisplay := by
  intro s h m hh hp hlow hhigh hm
  obtain ⟨hu, mt, mu, hhu, hmt, hmu, hht⟩ := exists_timeDigits hhigh hm
  have hexec := exec_disp_of_digits (decide (h / 10 = 1)) hu mt mu hh hp
  rw [hhu, hmt, hmu, hht, ← exec_time_eq_disp hlow hhigh hm] at hexec
  obtain ⟨⟨hshowHt, hshowHu⟩, ⟨hshowMtExtra, hshowMt⟩, hshowMuExtra, hshowMu⟩ :=
    chainAfter_three_shows s.sr (decide (h / 10 = 1)) true true (memRead hu) (memRead mt) (memRead mu) rfl
  refine ⟨_, hu, mt, mu, hexec, hhu, hmt, hmu, hshowHt, hshowHu, hshowMtExtra, hshowMt, hshowMuExtra, hshowMu, rfl,
    ⟨rfl, rfl⟩, hh, rfl, rfl, rfl, ?_⟩
  rw [State.afterShout, List.length_append, length_pinEntries_shoutScript]
  rfl

end Sys2Proof.Machine
end

section
/-! PROOFS. The duty as integer arithmetic and the PWM port (spec 42): the formula over the rational numbers is a
quotient of natural numbers, from which its clamps, its order and its first sums follow; then the PWM operations. -/

namespace Sys2Proof.Machine

/-! ## The integer form of the formula (42 R176) -/

/-- The divisor of the integer form: 10000 times the average less the calibration offset. -/
def dutyDivisor (sum : Nat) : Nat := 100 * sum - 101991

/-- The quotient of the integer form, by which the duty lies below 1022. -/
def dutyQuotient (sum : Nat) : Nat := 152840000 / dutyDivisor sum

theorem dutyDivisor_ge {sum : Nat} (h : 1500 ≤ sum) : 48009 ≤ dutyDivisor sum := by
  unfold dutyDivisor; omega

/-- The divisor ends in the digit 9, so it is coprime to 40000, and it is larger than the rest of the dividend. -/
theorem not_dutyDivisor_dvd {sum : Nat} (h : 1500 ≤ sum) : ¬ dutyDivisor sum ∣ 152840000 := by
  intro hdvd
  have hge := dutyDivisor_ge h
  have hdigit : dutyDivisor sum % 10 = 9 := by unfold dutyDivisor; omega
  have hten : Nat.Coprime (dutyDivisor sum) 10 := by
    rw [Nat.Coprime, Nat.gcd_comm, Nat.gcd_rec, hdigit]; norm_num
  have hcoprime : Nat.Coprime (dutyDivisor sum) 40000 :=
    (hten.pow_right 6).coprime_dvd_right (by norm_num)
  have hproduct : dutyDivisor sum ∣ 3821 * 40000 := by norm_num; exact hdvd
  have hrest : dutyDivisor sum ∣ 3821 := hcoprime.dvd_of_dvd_mul_right hproduct
  have := Nat.le_of_dvd (by omega) hrest
  omega

/-- Subtracting a fraction that is no whole number and rounding down. -/
theorem floor_sub_div (top : Int) {n d : Nat} (hd : 0 < d) (h : ¬ d ∣ n) :
    ((top : Rat) - (n : Rat) / (d : Rat)).floor = top - 1 - (n / d : Nat) := by
  have hpos : (0 : Rat) < d := Nat.cast_pos.2 hd
  have hdiv := Nat.div_add_mod n d
  have hrem : n % d ≠ 0 := fun h0 => h (Nat.dvd_of_mod_eq_zero h0)
  have hlt := Nat.mod_lt n hd
  have hbelow : d * (n / d) < n := by omega
  have habove : n < d * (n / d + 1) := by rw [Nat.mul_succ]; omega
  generalize n / d = q at hbelow habove ⊢
  have hlow : (q : Rat) < n / d := by
    rw [lt_div_iff₀ hpos, mul_comm]; exact_mod_cast hbelow
  have hhigh : (n : Rat) / d < q + 1 := by
    rw [div_lt_iff₀ hpos, mul_comm]; exact_mod_cast habove
  apply le_antisymm
  · refine Int.lt_add_one_iff.1 (Rat.floor_lt_iff.2 ?_)
    push_cast; linarith
  · refine Rat.le_floor_iff.2 ?_
    push_cast; linarith

/-- The fraction that the formula subtracts is the dividend over the divisor. -/
theorem duty_fraction_eq {sum : Nat} (h : 1500 ≤ sum) :
    1 / ((average sum - calOffset) / calScale) = ((152840000 : Nat) : Rat) / (dutyDivisor sum : Rat) := by
  have hsum : dutyDivisor sum + 101991 = 100 * sum := by unfold dutyDivisor; omega
  have hcast : (dutyDivisor sum : Rat) + 101991 = 100 * sum := by exact_mod_cast congrArg (Nat.cast (R := Rat)) hsum
  have hscaled : (average sum - calOffset) / calScale = (dutyDivisor sum : Rat) / (152840000 : Nat) := by
    rw [eq_sub_of_add_eq hcast, average, nSamples, calOffset, calScale]; push_cast; ring
  rw [hscaled, one_div_div]

/-- The formula before the clamp, for every sum that takes it (42 R176). -/
theorem rawDuty_eq {sum : Nat} (h : 1500 ≤ sum) : rawDuty sum = 1022 - (dutyQuotient sum : Int) := by
  have hge := dutyDivisor_ge h
  rw [rawDuty, duty_fraction_eq h]
  exact floor_sub_div 1023 (by omega) (not_dutyDivisor_dvd h)

theorem dutyOfSum_eq {sum : Nat} (h : 1500 ≤ sum) : dutyOfSum sum = max 1 (1022 - (dutyQuotient sum : Int)) := by
  rw [dutyOfSum_of_ge h, rawDuty_eq h, dutyMin, dutyMax, min_eq_right (by omega)]

theorem dutyOfSum_low {sum : Nat} (h : sum < 1500) : dutyOfSum sum = 1 := dutyOfSum_of_lt h

/-! ## Bounds of the quotient, as bounds of the sum -/

theorem le_dutyQuotient_iff {sum : Nat} (h : 1500 ≤ sum) (k : Nat) :
    k ≤ dutyQuotient sum ↔ k * (100 * sum - 101991) ≤ 152840000 := by
  have hge := dutyDivisor_ge h
  exact Nat.le_div_iff_mul_le (by omega)

theorem dutyQuotient_antitone {a b : Nat} (ha : 1500 ≤ a) (hab : a ≤ b) : dutyQuotient b ≤ dutyQuotient a := by
  have hge := dutyDivisor_ge ha
  exact Nat.div_le_div_left (by unfold dutyDivisor; omega) (by omega)

/-! ## The PWM operations -/

theorem exec_pwmf {s : State} (hz : Nat) (hh : s.halt = false) :
    exec (.pwmf hz) s = .next (State.writePwmFreq { s with result := none } hz) :=
  issue_running s (fun t => .next (t.writePwmFreq hz)) hh

theorem exec_pwmd {s : State} {v : Nat} (hv : v ≤ 1023) (hh : s.halt = false) :
    exec (.pwmd v) s = .next (State.writePwmDuty { s with result := none } (BitVec.ofNat 10 v)) := by
  rw [exec, execPwmd, issue_running s _ hh, if_pos hv]

theorem exec_pwmd_of_gt {s : State} {v : Nat} (hv : 1023 < v) (hh : s.halt = false) :
    exec (.pwmd v) s = .refused .dutyOutOfRange := by
  rw [exec, execPwmd, issue_running s _ hh, if_neg (by omega)]

/-- A duty that was handed back goes to the PWM register (30_encoding R101). -/
theorem giveDutyToPwm_eq {s : State} {r : BitVec 10} (hr : s.result = some (.duty r)) (hh : s.halt = false) :
    giveDutyToPwm s = .next (State.writePwmDuty { s with result := none } r) := by
  have hexec : exec (.pwmd r.toNat) s = .next (State.writePwmDuty { s with result := none } r) := by
    rw [exec_pwmd (Nat.le_of_lt_succ r.isLt) hh, BitVec.ofNat_toNat, BitVec.setWidth_eq]
  rw [giveDutyToPwm, hr]
  exact hexec

/-! ## The obligations -/

/-- Settles O32: the end state of `CDUTY`. -/
theorem cdutyReadsHundredSamples : Obligations.CdutyReadsHundredSamples := fun _ hh => exec_cduty hh

/-- Settles O35: the quotient is 3183, 1022 and 1021 at the three sums, and at least 1022 up to the sum 2515. -/
theorem clampActsOnlyBelow : Obligations.ClampActsOnlyBelow := by
  refine ⟨dutyOfSum_bounds, ?_, ?_, ?_, fun sum h => ?_⟩
  · rw [rawDuty_eq (by omega)]; rfl
  · rw [rawDuty_eq (by omega)]; rfl
  · rw [rawDuty_eq (by omega)]; rfl
  · have hclamp := le_dutyQuotient_iff h 1022
    rw [rawDuty_eq h]
    omega

/-- Settles O36: the closed form of the formula, which is at most 1022 by itself. -/
theorem dutyIntegerClosedForm : Obligations.DutyIntegerClosedForm :=
  fun _ h => ⟨rawDuty_eq h, dutyOfSum_eq h⟩

/-- Settles O37: below 1500 the duty is the least one, and from there the quotient falls as the sum grows: to 1020 at
2517 and to 0 at 1529420. -/
theorem dutyNondecreasing : Obligations.DutyNondecreasing := by
  refine ⟨fun a b hab => ?_, fun sum => ?_, fun sum => ?_⟩
  · rcases Nat.lt_or_ge a 1500 with ha | ha
    · rw [dutyOfSum_low ha]
      exact (dutyOfSum_bounds b).1
    · have := dutyQuotient_antitone ha hab
      rw [dutyOfSum_eq ha, dutyOfSum_eq (ha.trans hab)]
      omega
  · rcases Nat.lt_or_ge sum 1500 with h | h
    · rw [dutyOfSum_low h]; omega
    · have hfirst := le_dutyQuotient_iff h 1021
      rw [dutyOfSum_eq h]; omega
  · rcases Nat.lt_or_ge sum 1500 with h | h
    · rw [dutyOfSum_low h]; omega
    · have hfirst := le_dutyQuotient_iff h 1
      rw [dutyOfSum_eq h]; omega

/-- Settles O38: the operation is one write of the frequency register. -/
theorem pwmfWritesFrequency : Obligations.PwmfWritesFrequency := fun _ hz hh => exec_pwmf hz hh

/-- Settles O39: a value the 10 bits hold is written, any other refused. -/
theorem pwmdWritesDuty : Obligations.PwmdWritesDuty := fun _ v hh =>
  ⟨fun hv => ⟨BitVec.ofNat 10 v, (BitVec.toNat_ofNat v 10).trans (Nat.mod_eq_of_lt (Nat.lt_succ_of_le hv)),
    exec_pwmd hv hh⟩, fun hv => exec_pwmd_of_gt hv hh⟩

/-- Settles O40: `CDUTY` leaves the duty on the result port, and `PWMD` writes it. -/
theorem brightSetsComputedDuty : Obligations.BrightSetsComputedDuty := by
  intro s hh
  refine ⟨_, ofInt_dutyOfSum _, ?_⟩
  rw [bright, exec_cduty hh]
  exact giveDutyToPwm_eq s.afterCduty_result hh

/-- Settles O41: the fraction is the register over 1023. -/
theorem pwmFractionLinear : Obligations.PwmFractionLinear := by
  intro s t
  have hfull : (0 : Rat) < pwmFull := by norm_num [pwmFull]
  refine ⟨fun h => ?_, fun h => ?_, ?_, fun h => ?_⟩
  · rw [State.pwmHighFraction, h]; simp
  · rw [State.pwmHighFraction, h]; exact div_self hfull.ne'
  · rw [State.pwmHighFraction]; exact div_mul_cancel₀ _ hfull.ne'
  · exact div_le_div_of_nonneg_right (Nat.cast_le.2 h) hfull.le

end Sys2Proof.Machine
end

section
/-! PROOFS. Rules of the whole machine: the stops of the operations, the halted state, who writes which register, the
result port, what no operation reads, and the step (10_state; 60; 30_encoding R85, R95, R98). -/

namespace Sys2Proof.Machine

/-! ## The operations by kind -/

theorem eq_encoderInstr_of_encodedSymbol {i : Instr} {x : Bool} {sym : Symbol} (h : encodedSymbol i = some (x, sym)) :
    i = encoderInstr ⟨x, sym⟩ := by
  cases i with
  | encd | encb | encr => cases h; rfl
  | shout | frame | disp | time | cduty | pwmf | pwmd => nomatch h

/-- The four operations that shift patterns out (spec 41, 43). -/
def IsShiftOperation (i : Instr) : Prop :=
  (∃ ps, i = .shout ps) ∨ (∃ a0 a1 a2, i = .frame a0 a1 a2) ∨ (∃ ht hu mt mu, i = .disp ht hu mt mu) ∨
    ∃ h m, i = .time h m

theorem isShiftOperation_of_shiftedPatterns {i : Instr} {c : Checked (List Pattern)}
    (h : shiftedPatterns i = some c) : IsShiftOperation i := by
  cases i with
  | shout ps => exact .inl ⟨ps, rfl⟩
  | frame a0 a1 a2 => exact .inr (.inl ⟨a0, a1, a2, rfl⟩)
  | disp ht hu mt mu => exact .inr (.inr (.inl ⟨ht, hu, mt, mu, rfl⟩))
  | time hour m => exact .inr (.inr (.inr ⟨hour, m, rfl⟩))
  | encd | encb | encr | cduty | pwmf | pwmd => nomatch h

/-! ## Stops (60 R226, R229) -/

theorem next_ne_fault (t : State) (f : Fault) : (.next t : Outcome) ≠ .fault f := nofun

theorem Checked.perform_ne_fault {α : Type} (c : Checked α) (s : State) (act : α → State) (f : Fault) :
    c.perform s act ≠ .fault f := by
  cases c with
  | ok | raise | refuse => nofun

theorem Checked.perform_refused {α : Type} {c : Checked α} {s : State} {act : α → State} {r : Refusal}
    (h : c.perform s act = .refused r) : c = .refuse r := by
  cases c with
  | ok | raise => cases h
  | refuse => cases h; rfl

/-- Every operation is issued, and past that it does not fault: it ends in a next state or is refused. -/
theorem exec_eq_issue (i : Instr) :
    ∃ run : State → Outcome, (∀ s, exec i s = issue s run) ∧ ∀ s f, run s ≠ .fault f := by
  have hshift : ∀ c, shiftedPatterns i = some c →
      ∃ run : State → Outcome, (∀ s, exec i s = issue s run) ∧ ∀ s f, run s ≠ .fault f :=
    fun c hc => ⟨_, exec_of_shiftedPatterns hc, fun s => c.perform_ne_fault s _⟩
  cases i with
  | encd x d => exact ⟨giveEncoded x (.digit d), fun _ => rfl, fun s => Checked.perform_ne_fault _ s _⟩
  | encb x => exact ⟨giveEncoded x .blank, fun _ => rfl, fun s => Checked.perform_ne_fault _ s _⟩
  | encr x l => exact ⟨giveEncoded x (.raw l), fun _ => rfl, fun s => Checked.perform_ne_fault _ s _⟩
  | shout | frame | disp | time => exact hshift _ rfl
  | cduty => exact ⟨_, fun _ => by rw [exec, execCduty], fun _ f => next_ne_fault _ f⟩
  | pwmf hz => exact ⟨_, fun _ => by rw [exec, execPwmf], fun _ f => next_ne_fault _ f⟩
  | pwmd v =>
    refine ⟨_, fun _ => by rw [exec, execPwmd], fun s f => ?_⟩
    rcases Nat.lt_or_ge 1023 v with hv | hv
    · rw [if_neg (Nat.not_le.2 hv)]; nofun
    · rw [if_pos hv]; exact next_ne_fault _ f

theorem exec_of_halted {s : State} (i : Instr) (h : s.halt = true) : exec i s = .fault .halted := by
  obtain ⟨run, hexec, -⟩ := exec_eq_issue i
  rw [hexec, issue_halted s run h]

theorem halted_of_exec_fault {i : Instr} {s : State} {f : Fault} (h : exec i s = .fault f) : s.halt = true := by
  obtain ⟨run, hexec, hrun⟩ := exec_eq_issue i
  by_contra hh
  rw [hexec, issue_running s run (eq_false_of_ne_true hh)] at h
  exact hrun _ f h

/-- A refused operation is an encoder operation or a shift-out whose checks refuse, or a `PWMD` past its range. -/
theorem exec_refused_cases {i : Instr} {s : State} {r : Refusal} (h : exec i s = .refused r) : s.halt = false ∧
    ((∃ x sym, encodedSymbol i = some (x, sym) ∧ encodeSymbol x sym = .refuse r) ∨
      shiftedPatterns i = some (.refuse r) ∨ ∃ v, i = .pwmd v ∧ 1023 < v ∧ r = .dutyOutOfRange) := by
  have hh : s.halt = false := by
    by_contra hc
    rw [exec_of_halted i (eq_true_of_ne_false hc)] at h
    cases h
  refine ⟨hh, ?_⟩
  have hencoder : ∀ a, exec (encoderInstr a) s = .refused r → encodeSymbol a.extra a.symbol = .refuse r := by
    intro a ha
    rw [exec_encoderInstr a hh] at ha
    exact Checked.perform_refused ha
  have hshift : ∀ c, shiftedPatterns i = some c → shiftedPatterns i = some (.refuse r) := by
    intro c hc
    rw [exec_of_shiftedPatterns hc, issue_running s _ hh] at h
    rw [hc, Checked.perform_refused h]
  cases i with
  | encd x d => exact .inl ⟨x, .digit d, rfl, hencoder ⟨x, .digit d⟩ h⟩
  | encb x => exact .inl ⟨x, .blank, rfl, hencoder ⟨x, .blank⟩ h⟩
  | encr x l => exact .inl ⟨x, .raw l, rfl, hencoder ⟨x, .raw l⟩ h⟩
  | shout | frame | disp | time => exact .inr (.inl (hshift _ rfl))
  | cduty => rw [exec_cduty hh] at h; cases h
  | pwmf hz => rw [exec_pwmf hz hh] at h; cases h
  | pwmd v =>
    rcases Nat.lt_or_ge 1023 v with hv | hv
    · rw [exec_pwmd_of_gt hv hh] at h
      cases h
      exact .inr (.inr ⟨v, rfl, hv, rfl⟩)
    · rw [exec_pwmd hv hh] at h
      cases h

/-- The operands for which the spec refuses an operation (60 R229). -/
def RefusedOperands (i : Instr) (r : Refusal) : Prop :=
  (r = .digitOutOfRange ∧ ((∃ x d, i = .encd x d ∧ 9 < d) ∨
      (∃ a0 a1 a2 : Assignment, i = .frame a0 a1 a2 ∧
        ∃ d, 9 < d ∧ (a0.symbol = .digit d ∨ a1.symbol = .digit d ∨ a2.symbol = .digit d)) ∨
      ∃ ht hu mt mu, i = .disp ht hu mt mu ∧ (9 < hu ∨ 9 < mt ∨ 9 < mu))) ∨
    (r = .timeOutOfRange ∧ ∃ h m, i = .time h m ∧ (h < 1 ∨ 12 < h ∨ 59 < m)) ∨
    (r = .dutyOutOfRange ∧ ∃ v, i = .pwmd v ∧ 1023 < v)

theorem refusedOperands_of_shiftedPatterns {i : Instr} {r : Refusal} (h : shiftedPatterns i = some (.refuse r)) :
    RefusedOperands i r := by
  cases i with
  | frame a0 a1 a2 =>
    obtain ⟨rfl, d, hd, hstage⟩ := encodeFrame_refuse (Option.some.inj h)
    exact .inl ⟨rfl, .inr (.inl ⟨a0, a1, a2, rfl, d, hd, hstage⟩)⟩
  | disp ht hu mt mu =>
    obtain ⟨rfl, hbad⟩ := encodeDigits_refuse (Option.some.inj h)
    exact .inl ⟨rfl, .inr (.inr ⟨ht, hu, mt, mu, rfl, hbad⟩)⟩
  | time hour m =>
    obtain ⟨rfl, hbad⟩ := encodeTime_refuse (Option.some.inj h)
    exact .inr (.inl ⟨rfl, hour, m, rfl, hbad⟩)
  | shout | encd | encb | encr | cduty | pwmf | pwmd => nomatch h

theorem refusedOperands_of_exec {i : Instr} {s : State} {r : Refusal} (h : exec i s = .refused r) :
    RefusedOperands i r := by
  obtain ⟨-, ⟨x, sym, hi, hsym⟩ | hi | ⟨v, rfl, hv, rfl⟩⟩ := exec_refused_cases h
  · obtain ⟨rfl, d, rfl, hd⟩ := encodeSymbol_refuse hsym
    exact .inl ⟨rfl, .inl ⟨x, d, eq_encoderInstr_of_encodedSymbol hi, hd⟩⟩
  · exact refusedOperands_of_shiftedPatterns hi
  · exact .inr (.inr ⟨rfl, v, rfl, hv⟩)

/-- An operation whose checks find a fatal error raises it and does nothing else (60 R225). -/
theorem exec_of_raise {i : Instr} {e : FatalError}
    (h : (∃ x sym, encodedSymbol i = some (x, sym) ∧ encodeSymbol x sym = .raise e) ∨
      shiftedPatterns i = some (.raise e)) {s : State} (hh : s.halt = false) :
    exec i s = .next (s.afterFault e.code) := by
  rcases h with ⟨x, sym, hi, hsym⟩ | hi
  · rw [eq_encoderInstr_of_encodedSymbol hi]
    exact exec_encoderInstr_of_raise (a := ⟨x, sym⟩) hh hsym
  · exact exec_of_shiftedPatterns_raise hi hh

/-! ## Steps -/

theorem step_of_halted {s : State} (h : s.halt = true) : step s = .fault .halted := if_pos h

/-- A run that cannot take its first step ends in that step's fault. -/
theorem run_succ_of_step_fault (M : Host.Core) {s : M.State} {r : M.Fault} (n : Nat) (h : M.step s = .fault r) :
    M.run (n + 1) s = .fault r := by
  rw [Host.Core.run, h]

theorem step_of_idle {s : State} (hh : s.halt = false) (hc : s.commands = []) : step s = .next s := by
  rw [step, if_neg (ne_true_of_eq_false hh), State.fetch_idle hc]

theorem step_of_pending {s : State} (hh : s.halt = false) (hc : s.commands ≠ []) :
    (∀ why, decode s.commands = .error why → step s = .refused (.invalidCommandWord why)) ∧
    ∀ i rest, decode s.commands = .ok (i, rest) → step s = exec i { s with commands := rest } := by
  rw [step, if_neg (ne_true_of_eq_false hh), State.fetch_pending hc]
  refine ⟨fun why hd => ?_, fun i rest hd => ?_⟩
  · rw [hd]; rfl
  · rw [hd]; rfl

/-! ## Shifting out from states that differ in registers it does not read -/

/-- The levels of the clock pins after a script depend on nothing but their levels before. -/
theorem State.runScript_clocks_congr {s t : State} (script : PinScript) (hshcp : s.shcp = t.shcp)
    (hstcp : s.stcp = t.stcp) :
    (s.runScript script).shcp = (t.runScript script).shcp ∧ (s.runScript script).stcp = (t.runScript script).stcp := by
  induction script generalizing s t with
  | nil => exact ⟨hshcp, hstcp⟩
  | cons w ws ih =>
    obtain ⟨p, b⟩ := w
    have hnext : (s.pinWrite p b).shcp = (t.pinWrite p b).shcp ∧ (s.pinWrite p b).stcp = (t.pinWrite p b).stcp := by
      cases p <;> simp [hshcp, hstcp]
    obtain ⟨hshcp', hstcp'⟩ := hnext
    exact ih hshcp' hstcp'

/-- A shift-out begun with the same clock levels, `HALT = 0` and the same result port shows the same, whatever the
other registers hold. -/
theorem State.shiftOut_unread {s u : State} (ps : List Pattern) (hrun : s.halt = false) (hhalt : u.halt = s.halt)
    (hresult : u.result = s.result) (hshcp : u.shcp = s.shcp) (hstcp : u.stcp = s.stcp) :
    (u.shiftOut ps).result = (s.shiftOut ps).result ∧ (u.shiftOut ps).halt = (s.shiftOut ps).halt ∧
    ((s.shiftOut ps).halt = true → (u.shiftOut ps).cause = (s.shiftOut ps).cause) ∧
    (u.shiftOut ps).shcp = (s.shiftOut ps).shcp ∧ (u.shiftOut ps).stcp = (s.shiftOut ps).stcp ∧
    ∃ added, (s.shiftOut ps).trace = s.trace ++ added ∧ (u.shiftOut ps).trace = u.trace ++ added := by
  obtain ⟨-, -, hshalt, -, hstrace, hsresult, -⟩ := s.runScript_frame (shoutScript ps)
  obtain ⟨-, -, huhalt, -, hutrace, huresult, -⟩ := u.runScript_frame (shoutScript ps)
  obtain ⟨hshcp', hstcp'⟩ := State.runScript_clocks_congr (shoutScript ps) hshcp hstcp
  exact ⟨huresult.trans (hresult.trans hsresult.symm), huhalt.trans (hhalt.trans hshalt.symm),
    fun ht => absurd (hshalt.symm.trans ht) (ne_true_of_eq_false hrun), hshcp', hstcp', _, hstrace, hutrace⟩

/-! ## The obligations -/

/-- Settles O42: an operation that ends halted is `afterFault` of one of the two errors. -/
theorem faultsPrecise : Obligations.FaultsPrecise := by
  intro i s t h ht
  obtain ⟨e, -, rfl⟩ := exec_halted h ht
  cases e with
  | invalidPattern => exact .inl rfl
  | invalidHourTens => exact .inr rfl

/-- Settles O45: a refusal comes from the checks, each of which names its operands; nothing past the issue of an
operation faults. -/
theorem stopsAreTheListedOnes : Obligations.StopsAreTheListedOnes :=
  ⟨fun _ _ _ h => ⟨(exec_refused_cases h).1, refusedOperands_of_exec h⟩, fun _ _ _ h => halted_of_exec_fault h⟩

/-- Settles O46: every operation is issued, a step tests `HALT` first, and a run begins with a step. -/
theorem haltedStateIsFinal : Obligations.HaltedStateIsFinal := by
  refine fun s hs => ⟨fun i => exec_of_halted i hs, step_of_halted hs, fun n => ?_⟩
  exact run_succ_of_step_fault Sys2Proof.core n (step_of_halted hs)

/-- Settles O47: each kind of operation, by what it writes. -/
theorem stateOwnership : Obligations.StateOwnership := by
  intro i s t h
  obtain ⟨-, hcases⟩ := exec_cases h
  rcases hcases with ⟨_, _, p, -, -, rfl⟩ | ⟨ps, hi, rfl⟩ | ⟨e, -, rfl⟩ | ⟨rfl, rfl⟩ | ⟨hz, rfl, rfl⟩ |
    ⟨v, rfl, -, rfl⟩
  · exact ⟨fun _ => ⟨rfl, rfl, rfl, rfl, rfl⟩, fun _ => rfl, fun _ => rfl, fun _ => ⟨rfl, rfl⟩, fun _ => rfl, rfl⟩
  · obtain ⟨hduty, hfreq, -, hcause, -, -, hcommands, hsensor, hreads⟩ :=
      State.runScript_frame { s with result := none } (shoutScript ps)
    refine ⟨fun hnone => ?_, fun _ => hduty, fun _ => hfreq, fun _ => ⟨hsensor, hreads⟩, fun _ => hcause, hcommands⟩
    obtain ⟨hshout, hframe, hdisp, htime⟩ := hnone
    rcases isShiftOperation_of_shiftedPatterns hi with hi | hi | hi | hi
    · exact absurd hi hshout
    · exact absurd hi hframe
    · exact absurd hi hdisp
    · exact absurd hi htime
  · exact ⟨fun _ => ⟨rfl, rfl, rfl, rfl, rfl⟩, fun _ => rfl, fun _ => rfl, fun _ => ⟨rfl, rfl⟩,
      (fun hrun => nomatch hrun), rfl⟩
  · exact ⟨fun _ => ⟨rfl, rfl, rfl, rfl, rfl⟩, fun _ => rfl, fun _ => rfl, fun hne => absurd rfl hne, fun _ => rfl, rfl⟩
  · exact ⟨fun _ => ⟨rfl, rfl, rfl, rfl, rfl⟩, fun _ => rfl, fun hne => absurd ⟨hz, rfl⟩ hne, fun _ => ⟨rfl, rfl⟩,
      fun _ => rfl, rfl⟩
  · exact ⟨fun _ => ⟨rfl, rfl, rfl, rfl, rfl⟩, fun hne => absurd ⟨v, rfl⟩ hne, fun _ => rfl, fun _ => ⟨rfl, rfl⟩,
      fun _ => rfl, rfl⟩

/-- Settles O48: each kind of operation, by what it hands back. -/
theorem resultPortByOperation : Obligations.ResultPortByOperation := by
  intro i s t h
  obtain ⟨hh, hcases⟩ := exec_cases h
  have hrunning : s.halt ≠ true := ne_true_of_eq_false hh
  rcases hcases with ⟨x, sym, p, hi, -, rfl⟩ | ⟨ps, hi, rfl⟩ | ⟨e, -, rfl⟩ | ⟨rfl, rfl⟩ | ⟨hz, rfl, rfl⟩ |
    ⟨v, rfl, -, rfl⟩
  · refine ⟨fun ht => absurd ht hrunning, fun _ => ?_⟩
    rw [eq_encoderInstr_of_encodedSymbol hi]
    cases sym with
    | digit | blank | raw => exact ⟨p, rfl⟩
  · obtain ⟨-, -, -, -, -, hresult, -⟩ := State.runScript_frame { s with result := none } (shoutScript ps)
    refine ⟨fun _ => hresult, fun _ => ?_⟩
    rcases isShiftOperation_of_shiftedPatterns hi with ⟨_, rfl⟩ | ⟨_, _, _, rfl⟩ | ⟨_, _, _, _, rfl⟩ | ⟨_, _, rfl⟩
    · exact hresult
    · exact hresult
    · exact hresult
    · exact hresult
  · exact ⟨fun _ => rfl, fun ht => nomatch ht⟩
  · exact ⟨fun ht => absurd ht hrunning, fun _ => ⟨_, rfl⟩⟩
  · exact ⟨fun _ => rfl, fun _ => rfl⟩
  · exact ⟨fun _ => rfl, fun _ => rfl⟩

/-- Settles O49: each kind of operation does from the other state what it did from the first, as its checks, the
samples and the clock levels are the same. -/
theorem hiddenStateNeverRead : Obligations.HiddenStateNeverRead := by
  intro i s t data sr out duty freq cause trace result h
  obtain ⟨hh, hcases⟩ := exec_cases h
  rcases hcases with ⟨x, sym, p, hi, hsym, rfl⟩ | ⟨ps, hi, rfl⟩ | ⟨e, hraise, rfl⟩ | ⟨rfl, rfl⟩ | ⟨hz, rfl, rfl⟩ |
    ⟨v, rfl, hv, rfl⟩
  · obtain rfl := eq_encoderInstr_of_encodedSymbol hi
    exact ⟨_, exec_encoderInstr_of_ok (a := ⟨x, sym⟩) hh hsym, rfl, rfl,
      fun ht => absurd ht (ne_true_of_eq_false hh), rfl, rfl, [], (List.append_nil _).symm, (List.append_nil _).symm⟩
  · exact ⟨_, exec_of_shiftedPatterns_ok hi hh, State.shiftOut_unread ps hh rfl rfl rfl rfl⟩
  · exact ⟨_, exec_of_raise hraise hh, rfl, rfl, fun _ => rfl, rfl, rfl, _, rfl, rfl⟩
  · exact ⟨_, exec_cduty hh, rfl, rfl, fun ht => absurd ht (ne_true_of_eq_false hh), rfl, rfl, _, rfl, rfl⟩
  · exact ⟨_, exec_pwmf hz hh, rfl, rfl, fun ht => absurd ht (ne_true_of_eq_false hh), rfl, rfl, _, rfl, rfl⟩
  · exact ⟨_, exec_pwmd hv hh, rfl, rfl, fun ht => absurd ht (ne_true_of_eq_false hh), rfl, rfl, _, rfl, rfl⟩

/-- Settles O54: pending words that begin with an operation are not empty. -/
theorem stepRunsDecodedOperation : Obligations.StepRunsDecodedOperation := by
  intro s i rest hh hd
  have hc : s.commands ≠ [] := fun hnil => by rw [hnil] at hd; cases hd
  exact (step_of_pending hh hc).2 i rest hd

/-- Settles O55: the two other outcomes of the fetch. -/
theorem stepWaitsOrRefuses : Obligations.StepWaitsOrRefuses := fun _ hh =>
  ⟨step_of_idle hh, fun why hc hd => (step_of_pending hh hc).1 why hd⟩

end Sys2Proof.Machine
end
